-- ==== Sys2Proof/Word.lean ====
section
/-! DEFINITION. The widths of the core (00_scope.md R5): bytes, 16-bit words, 12-bit immediates, 4-bit indices. -/

namespace Sys2Proof

/-- An 8-bit value: a register, a memory byte, a timer, an 8-bit immediate (R5 `XLEN`). -/
abbrev Byte := BitVec 8

/-- A 16-bit value: an opcode, `I`, `pc`, a stack entry (R5). -/
abbrev Word := BitVec 16

/-- A 12-bit immediate, the field `nnn` (R91). -/
abbrev Imm12 := BitVec 12

/-- A 4-bit field of an opcode (R11 "Nibble"). -/
abbrev Nibble := BitVec 4

/-- A 4-bit register index, 0 to 15 (R21). -/
abbrev RegIndex := Nibble

/-- A 4-bit key index, 0 to 15 (R35, R246). -/
abbrev KeyIndex := Nibble

end Sys2Proof
end

