-- ==== Sys2Proof/Machine/Flags.lean ====
section
/-! DEFINITION. The flag values written to `VF` (10_state.md R22): each a Bool here, written as 0 or 1. -/

namespace Sys2Proof.Machine

/-- A flag as the byte written to `VF`: 0 or 1 (R22). -/
def flagByte (flag : Bool) : Byte := if flag then 1 else 0

/-- Carry (R177): the sum of two bytes exceeds 255. -/
def carryFlag (a b : Byte) : Bool := decide (a.toNat + b.toNat > 255)

/-- Not-borrow (R178, R180): minuend strictly greater than subtrahend; 0 at equality. -/
def notBorrowFlag (minuend subtrahend : Byte) : Bool := decide (minuend.toNat > subtrahend.toNat)

/-- The bit a right shift drops, bit 0 (R179). -/
def shiftedOutLow (a : Byte) : Bool := a.getLsbD 0

/-- The bit a left shift drops, bit 7 (R181). -/
def shiftedOutHigh (a : Byte) : Bool := a.getLsbD 7

end Sys2Proof.Machine
end

