-- ==== Sys2Proof/Config.lean ====
section
/-! DEFINITION. The parameters of 00_scope.md R5, constants of the machine, and the one free value: the random byte. -/

namespace Sys2Proof

/-- `MEM_SIZE` (R5, R27): 4096 bytes, addresses 0 to 4095. -/
def Config.memSize : Nat := 4096

/-- The highest address of memory (R60, R66). -/
def Config.maxAddr : Nat := 4095

/-- `FONT_BASE` (R5, R28). -/
def Config.fontBase : Nat := 0

/-- `FONT_SIZE` (R5, R28): 16 glyphs of 5 bytes. -/
def Config.fontSize : Nat := 80

/-- `GLYPH_BYTES` (R5, R28). -/
def Config.glyphBytes : Nat := 5

/-- `PROG_BASE` (R5, R304): where the image is placed and where execution starts. -/
def Config.progBase : Nat := 0x200

/-- `PROG_MAX` (R5, R302): the longest image a reset accepts. -/
def Config.progMax : Nat := 3584

/-- `STACK_DEPTH` (R5, R30). -/
def Config.stackDepth : Nat := 16

/-- `FB_WIDTH` (R5, R36). -/
def Config.fbWidth : Nat := 64

/-- `FB_HEIGHT` (R5, R36). -/
def Config.fbHeight : Nat := 32

/-- `NKEYS` (R5, R35). -/
def Config.nKeys : Nat := 16

/-- `INSTR_BYTES` (R5, R90). -/
def Config.instrBytes : Nat := 2

/-- `SPRITE_WIDTH` (R5, R221). -/
def Config.spriteWidth : Nat := 8

/-- `CLOCK_RATE` (R5, R314): informative, steps per second the host aims at; no rule depends on it (D31). -/
def Config.clockRate : Nat := 600

/-- `SOUND_TIMER_TICKS` (R5, R33, conflict C1, D8): a step does not tick `st`. -/
def Config.soundTimerTicks : Bool := false

/-- `FONT_TABLE` (R29, D7), the OPEN parameter, at the spec's default. PRESUMED: the byte values are the spec's
general-knowledge passage G1, not the source's (log 3). Nothing stated of the model rests on one of these bytes. -/
def Config.fontTable : List Byte :=
  [0xF0, 0x90, 0x90, 0x90, 0xF0] ++ [0x20, 0x60, 0x20, 0x20, 0x70] ++   -- 0, 1
  [0xF0, 0x10, 0xF0, 0x80, 0xF0] ++ [0xF0, 0x10, 0xF0, 0x10, 0xF0] ++   -- 2, 3
  [0x90, 0x90, 0xF0, 0x10, 0x10] ++ [0xF0, 0x80, 0xF0, 0x10, 0xF0] ++   -- 4, 5
  [0xF0, 0x80, 0xF0, 0x90, 0xF0] ++ [0xF0, 0x10, 0x20, 0x40, 0x40] ++   -- 6, 7
  [0xF0, 0x90, 0xF0, 0x90, 0xF0] ++ [0xF0, 0x90, 0xF0, 0x10, 0xF0] ++   -- 8, 9
  [0xF0, 0x90, 0xF0, 0x90, 0x90] ++ [0xE0, 0x90, 0xE0, 0x90, 0xE0] ++   -- A, B
  [0xF0, 0x80, 0x80, 0x80, 0xF0] ++ [0xE0, 0x90, 0x90, 0x90, 0xE0] ++   -- C, D
  [0xF0, 0x80, 0xF0, 0x80, 0xF0] ++ [0xF0, 0x80, 0xF0, 0x80, 0x80]      -- E, F

/-- The `k`-th random byte drawn: the input `draw_rnd` of the step that draws it (R38(a), R182, D21). A FREE VALUE:
it has no body, so nothing in Lean can evaluate it or prove a value of it (log 4). -/
opaque Config.drawRnd : Nat → Byte

end Sys2Proof
end

