-- ==== Sys2Proof/Syntax.lean ====
section
/-! DEFINITION. The 34 instructions of 30_encoding.md R95, one constructor per row of spec/opcode_table.json, and the
decoder's failure. Every operand has the width of its field (R91, R93), so no value out of range can be written. -/

namespace Sys2Proof

/-- A decoded instruction, the source's "variant" (R12, R95). `x` and `y` are register indices, `kk` an 8-bit
immediate, `nnn` a 12-bit address, `n` a row count 0 to 15. The constructors stand in the order of R95. -/
inductive Instr where
  | clearDisplay
  | ret
  | jump (nnn : Imm12)
  | call (nnn : Imm12)
  | skipIfEqualsImmediate (x : RegIndex) (kk : Byte)
  | skipIfNotEqualsImmediate (x : RegIndex) (kk : Byte)
  | skipIfRegistersEqual (x y : RegIndex)
  | loadImmediate (x : RegIndex) (kk : Byte)
  | addImmediate (x : RegIndex) (kk : Byte)
  | move (x y : RegIndex)
  | or (x y : RegIndex)
  | and (x y : RegIndex)
  | xor (x y : RegIndex)
  | add (x y : RegIndex)
  | sub (x y : RegIndex)
  | shiftRight (x y : RegIndex)
  | reverseSub (x y : RegIndex)
  | shiftLeft (x y : RegIndex)
  | skipIfRegistersNotEqual (x y : RegIndex)
  | loadIndex (nnn : Imm12)
  | jumpPlusRegister0 (nnn : Imm12)
  | loadRandomMasked (x : RegIndex) (kk : Byte)
  | drawSprite (x y : RegIndex) (n : Nibble)
  | skipIfKeyPressed (x : RegIndex)
  | skipIfKeyNotPressed (x : RegIndex)
  | readDelayTimer (x : RegIndex)
  | waitForKey (x : RegIndex)
  | setDelayTimer (x : RegIndex)
  | setSoundTimer (x : RegIndex)
  | addToIndex (x : RegIndex)
  | loadFontGlyphAddress (x : RegIndex)
  | storeBCD (x : RegIndex)
  | storeRegisters (x : RegIndex)
  | loadRegisters (x : RegIndex)
  deriving DecidableEq, Repr

/-- Why bytes are no instruction (R94, R100). -/
inductive DecodeError where
  /-- The word matches no row of R95; it carries the raw opcode (R94). -/
  | unrecognized (opcode : Word)
  /-- Fewer than two bytes were offered; a step never offers fewer (R133 checks first). -/
  | truncated (length : Nat)
  deriving DecidableEq, Repr

end Sys2Proof
end

