-- ==== Sys2Proof/WellFormed.lean ====
section
/-! DEFINITION. Well-formedness before the types take over: an instruction written as a variant name with plain
numbers (30_encoding.md R103), checked once into `Instr`. "A value out of range is an assembly error, never
truncated." After the check every operand has its field's width by type. -/

namespace Sys2Proof

/-- An argument as written (R103): a number, a register name `V0` ... `VF`, or a label with the address it names. -/
inductive RawArg where
  | num (n : Nat)
  | reg (r : Nat)
  | label (address : Nat)
  deriving DecidableEq, Repr

/-- An instruction as written in the source's notation `Name(a1, a2, ...)` (R103): nothing is checked yet. -/
structure RawInstr where
  name : String
  args : List RawArg
  deriving DecidableEq, Repr

/-- A register argument: a number 0 to 15 or a register name (R103). -/
def checkReg : RawArg → Option RegIndex
  | .num a => if a < 16 then some (BitVec.ofNat 4 a) else none
  | .reg a => if a < 16 then some (BitVec.ofNat 4 a) else none
  | .label _ => none

/-- A row count: 0 to 15 (R103). -/
def checkCount : RawArg → Option Nibble
  | .num a => if a < 16 then some (BitVec.ofNat 4 a) else none
  | _ => none

/-- An 8-bit immediate: 0 to 255 (R103). -/
def checkByte : RawArg → Option Byte
  | .num a => if a < 256 then some (BitVec.ofNat 8 a) else none
  | _ => none

/-- A 12-bit address: 0 to 4095, or a label (R103). -/
def checkImm12 : RawArg → Option Imm12
  | .num a => if a < 4096 then some (BitVec.ofNat 12 a) else none
  | .label a => if a < 4096 then some (BitVec.ofNat 12 a) else none
  | .reg _ => none

/-- One 12-bit argument. -/
def checkA (mk : Imm12 → Instr) : List RawArg → Option Instr
  | [nnn] => (checkImm12 nnn).map mk
  | _ => none

/-- A register and an 8-bit immediate. -/
def checkXK (mk : RegIndex → Byte → Instr) : List RawArg → Option Instr
  | [x, kk] => (checkReg x).bind fun x => (checkByte kk).map (mk x)
  | _ => none

/-- Two registers. -/
def checkXY (mk : RegIndex → RegIndex → Instr) : List RawArg → Option Instr
  | [x, y] => (checkReg x).bind fun x => (checkReg y).map (mk x)
  | _ => none

/-- Two registers and a row count. -/
def checkXYN (mk : RegIndex → RegIndex → Nibble → Instr) : List RawArg → Option Instr
  | [x, y, n] => (checkReg x).bind fun x => (checkReg y).bind fun y => (checkCount n).map (mk x y)
  | _ => none

/-- One register. -/
def checkX (mk : RegIndex → Instr) : List RawArg → Option Instr
  | [x] => (checkReg x).map mk
  | _ => none

/-- No argument. -/
def checkZ (i : Instr) : List RawArg → Option Instr
  | [] => some i
  | _ => none

/-- The variant names of R95 with the check of each one's arguments, in the order of R95. -/
def rawForms : List (String × (List RawArg → Option Instr)) :=
  [("ClearDisplay", checkZ .clearDisplay), ("Return", checkZ .ret),
   ("Jump", checkA .jump), ("Call", checkA .call),
   ("SkipIfEqualsImmediate", checkXK .skipIfEqualsImmediate),
   ("SkipIfNotEqualsImmediate", checkXK .skipIfNotEqualsImmediate),
   ("SkipIfRegistersEqual", checkXY .skipIfRegistersEqual),
   ("LoadImmediate", checkXK .loadImmediate), ("AddImmediate", checkXK .addImmediate)] ++
  [("Move", checkXY .move), ("Or", checkXY .or), ("And", checkXY .and), ("Xor", checkXY .xor),
   ("Add", checkXY .add), ("Sub", checkXY .sub), ("ShiftRight", checkXY .shiftRight),
   ("ReverseSub", checkXY .reverseSub), ("ShiftLeft", checkXY .shiftLeft),
   ("SkipIfRegistersNotEqual", checkXY .skipIfRegistersNotEqual)] ++
  [("LoadIndex", checkA .loadIndex), ("JumpPlusRegister0", checkA .jumpPlusRegister0),
   ("LoadRandomMasked", checkXK .loadRandomMasked), ("DrawSprite", checkXYN .drawSprite),
   ("SkipIfKeyPressed", checkX .skipIfKeyPressed), ("SkipIfKeyNotPressed", checkX .skipIfKeyNotPressed)] ++
  [("ReadDelayTimer", checkX .readDelayTimer), ("WaitForKey", checkX .waitForKey),
   ("SetDelayTimer", checkX .setDelayTimer), ("SetSoundTimer", checkX .setSoundTimer),
   ("AddToIndex", checkX .addToIndex), ("LoadFontGlyphAddress", checkX .loadFontGlyphAddress),
   ("StoreBCD", checkX .storeBCD), ("StoreRegisters", checkX .storeRegisters),
   ("LoadRegisters", checkX .loadRegisters)]

/-- Check a written instruction: its name is a variant name spelled exactly, it has that variant's arguments in
number, and each lies in its field's range (R103). -/
def RawInstr.check (r : RawInstr) : Option Instr :=
  (rawForms.find? (fun form => form.1 == r.name)).bind fun form => form.2 r.args

/-- A written instruction is well-formed when the check accepts it (R103). -/
def RawInstr.wellFormed (r : RawInstr) : Bool := r.check.isSome

/-- A program image is well-formed when it fits the program area: at most 3584 bytes (R302). -/
def imageWellFormed (image : List Byte) : Bool := decide (image.length ≤ 3584)

end Sys2Proof
end

