-- ==== Sys2Proof/Decode.lean ====
section
/-! DEFINITION. The decoder of 30_encoding.md (R91 to R100), total on every word and on any bytes, rejecting by name;
then the opcode map as rows (R95) and the encoder (R99). -/

namespace Sys2Proof

/-- `nibble0`, bits 15..12 (R91). -/
def fieldN0 (op : Word) : Nibble := op.extractLsb' 12 4

/-- `nibble1` = `x`, bits 11..8 (R91). -/
def fieldX (op : Word) : RegIndex := op.extractLsb' 8 4

/-- `nibble2` = `y`, bits 7..4 (R91). -/
def fieldY (op : Word) : RegIndex := op.extractLsb' 4 4

/-- `nibble3` = `n`, bits 3..0 (R91). -/
def fieldN (op : Word) : Nibble := op.extractLsb' 0 4

/-- `byte1` = `kk`, bits 7..0 (R91). -/
def fieldKK (op : Word) : Byte := op.extractLsb' 0 8

/-- `addr12` = `nnn`, bits 11..0 (R91). -/
def fieldNNN (op : Word) : Imm12 := op.extractLsb' 0 12

/-- Family 0x8, dispatched on `nibble3` (R96, R98). -/
def decodeAlu (op : Word) : Except DecodeError Instr :=
  let x := fieldX op
  let y := fieldY op
  match fieldN op with
  | 0x0#4 => .ok (.move x y)
  | 0x1#4 => .ok (.or x y)
  | 0x2#4 => .ok (.and x y)
  | 0x3#4 => .ok (.xor x y)
  | 0x4#4 => .ok (.add x y)
  | 0x5#4 => .ok (.sub x y)
  | 0x6#4 => .ok (.shiftRight x y)
  | 0x7#4 => .ok (.reverseSub x y)
  | 0xE#4 => .ok (.shiftLeft x y)
  | _ => .error (.unrecognized op)

/-- Family 0xE, dispatched on `byte1` (R96). -/
def decodeKey (op : Word) : Except DecodeError Instr :=
  match fieldKK op with
  | 0x9E#8 => .ok (.skipIfKeyPressed (fieldX op))
  | 0xA1#8 => .ok (.skipIfKeyNotPressed (fieldX op))
  | _ => .error (.unrecognized op)

/-- Family 0xF, dispatched on `byte1` (R96). -/
def decodeMisc (op : Word) : Except DecodeError Instr :=
  let x := fieldX op
  match fieldKK op with
  | 0x07#8 => .ok (.readDelayTimer x)
  | 0x0A#8 => .ok (.waitForKey x)
  | 0x15#8 => .ok (.setDelayTimer x)
  | 0x18#8 => .ok (.setSoundTimer x)
  | 0x1E#8 => .ok (.addToIndex x)
  | 0x29#8 => .ok (.loadFontGlyphAddress x)
  | 0x33#8 => .ok (.storeBCD x)
  | 0x55#8 => .ok (.storeRegisters x)
  | 0x65#8 => .ok (.loadRegisters x)
  | _ => .error (.unrecognized op)

/-- The Decoder (R94): a pure function of the word, dispatching on `nibble0` as R96 says, strict on the bits the
dispatch prose does not mention (R97). -/
def decode (op : Word) : Except DecodeError Instr :=
  match fieldN0 op with
  | 0x0#4 =>
    if op = 0x00E0#16 then .ok .clearDisplay
    else if op = 0x00EE#16 then .ok .ret
    else .error (.unrecognized op)
  | 0x1#4 => .ok (.jump (fieldNNN op))
  | 0x2#4 => .ok (.call (fieldNNN op))
  | 0x3#4 => .ok (.skipIfEqualsImmediate (fieldX op) (fieldKK op))
  | 0x4#4 => .ok (.skipIfNotEqualsImmediate (fieldX op) (fieldKK op))
  | 0x5#4 =>
    if fieldN op = 0 then .ok (.skipIfRegistersEqual (fieldX op) (fieldY op)) else .error (.unrecognized op)
  | 0x6#4 => .ok (.loadImmediate (fieldX op) (fieldKK op))
  | 0x7#4 => .ok (.addImmediate (fieldX op) (fieldKK op))
  | 0x8#4 => decodeAlu op
  | 0x9#4 =>
    if fieldN op = 0 then .ok (.skipIfRegistersNotEqual (fieldX op) (fieldY op)) else .error (.unrecognized op)
  | 0xA#4 => .ok (.loadIndex (fieldNNN op))
  | 0xB#4 => .ok (.jumpPlusRegister0 (fieldNNN op))
  | 0xC#4 => .ok (.loadRandomMasked (fieldX op) (fieldKK op))
  | 0xD#4 => .ok (.drawSprite (fieldX op) (fieldY op) (fieldN op))
  | 0xE#4 => decodeKey op
  | _ => decodeMisc op    -- 0xF, the one value left

/-- The 16-bit word of two bytes, the byte at the lower address in bits 15..8 (R62). -/
def bigEndian (hi lo : Byte) : Word := hi ++ lo

/-- The two bytes of a word in the order memory holds them (R62). -/
def wordBytes (op : Word) : List Byte := [op.extractLsb' 8 8, op.extractLsb' 0 8]

/-- Decode the instruction at the head of a byte sequence (R62, R90) and give the bytes after it. -/
def decodeBytes : List Byte → Except DecodeError (Instr × List Byte)
  | hi :: lo :: rest => (decode (bigEndian hi lo)).map fun i => (i, rest)
  | bytes => .error (.truncated bytes.length)

/-- The instruction the decoder reads from the word `w` of a row of `nbits` bits, as spec/opcode_table.json numbers
them: an instruction is one word (R90), so the table's bit `b` is the word's bit `b`. -/
def decodeTableWord (nbits w : Nat) : Option Instr :=
  match decodeBytes (wordBytes (BitVec.ofNat 16 (w % 2 ^ nbits))) with
  | .ok (i, _) => some i
  | .error _ => none

/-- A row of the opcode map (R95): `op` is this instruction exactly when `op &&& mask = pattern`. -/
structure OpcodeRow where
  mnemonic : String
  pattern : Word
  mask : Word
  deriving DecidableEq, Repr

/-- The row of R95 each instruction stands in. -/
def Instr.row : Instr → OpcodeRow
  | .clearDisplay => ⟨"ClearDisplay", 0x00E0, 0xFFFF⟩
  | .ret => ⟨"Return", 0x00EE, 0xFFFF⟩
  | .jump _ => ⟨"Jump", 0x1000, 0xF000⟩
  | .call _ => ⟨"Call", 0x2000, 0xF000⟩
  | .skipIfEqualsImmediate _ _ => ⟨"SkipIfEqualsImmediate", 0x3000, 0xF000⟩
  | .skipIfNotEqualsImmediate _ _ => ⟨"SkipIfNotEqualsImmediate", 0x4000, 0xF000⟩
  | .skipIfRegistersEqual _ _ => ⟨"SkipIfRegistersEqual", 0x5000, 0xF00F⟩
  | .loadImmediate _ _ => ⟨"LoadImmediate", 0x6000, 0xF000⟩
  | .addImmediate _ _ => ⟨"AddImmediate", 0x7000, 0xF000⟩
  | .move _ _ => ⟨"Move", 0x8000, 0xF00F⟩
  | .or _ _ => ⟨"Or", 0x8001, 0xF00F⟩
  | .and _ _ => ⟨"And", 0x8002, 0xF00F⟩
  | .xor _ _ => ⟨"Xor", 0x8003, 0xF00F⟩
  | .add _ _ => ⟨"Add", 0x8004, 0xF00F⟩
  | .sub _ _ => ⟨"Sub", 0x8005, 0xF00F⟩
  | .shiftRight _ _ => ⟨"ShiftRight", 0x8006, 0xF00F⟩
  | .reverseSub _ _ => ⟨"ReverseSub", 0x8007, 0xF00F⟩
  | .shiftLeft _ _ => ⟨"ShiftLeft", 0x800E, 0xF00F⟩
  | .skipIfRegistersNotEqual _ _ => ⟨"SkipIfRegistersNotEqual", 0x9000, 0xF00F⟩
  | .loadIndex _ => ⟨"LoadIndex", 0xA000, 0xF000⟩
  | .jumpPlusRegister0 _ => ⟨"JumpPlusRegister0", 0xB000, 0xF000⟩
  | .loadRandomMasked _ _ => ⟨"LoadRandomMasked", 0xC000, 0xF000⟩
  | .drawSprite _ _ _ => ⟨"DrawSprite", 0xD000, 0xF000⟩
  | .skipIfKeyPressed _ => ⟨"SkipIfKeyPressed", 0xE09E, 0xF0FF⟩
  | .skipIfKeyNotPressed _ => ⟨"SkipIfKeyNotPressed", 0xE0A1, 0xF0FF⟩
  | .readDelayTimer _ => ⟨"ReadDelayTimer", 0xF007, 0xF0FF⟩
  | .waitForKey _ => ⟨"WaitForKey", 0xF00A, 0xF0FF⟩
  | .setDelayTimer _ => ⟨"SetDelayTimer", 0xF015, 0xF0FF⟩
  | .setSoundTimer _ => ⟨"SetSoundTimer", 0xF018, 0xF0FF⟩
  | .addToIndex _ => ⟨"AddToIndex", 0xF01E, 0xF0FF⟩
  | .loadFontGlyphAddress _ => ⟨"LoadFontGlyphAddress", 0xF029, 0xF0FF⟩
  | .storeBCD _ => ⟨"StoreBCD", 0xF033, 0xF0FF⟩
  | .storeRegisters _ => ⟨"StoreRegisters", 0xF055, 0xF0FF⟩
  | .loadRegisters _ => ⟨"LoadRegisters", 0xF065, 0xF0FF⟩

/-- Format `A` (R92): `nnn` in bits 11..0. -/
def placeA (nnn : Imm12) : Word := 0x0#4 ++ nnn

/-- Format `XK` (R92): `x` in bits 11..8, `kk` in bits 7..0. -/
def placeXK (x : RegIndex) (kk : Byte) : Word := 0x0#4 ++ x ++ kk

/-- Formats `XY` and `XYN` (R92): `x` in bits 11..8, `y` in bits 7..4, `n` (or 0) in bits 3..0. -/
def placeXYN (x y : RegIndex) (n : Nibble) : Word := 0x0#4 ++ x ++ y ++ n

/-- Format `X` (R92): `x` in bits 11..8. -/
def placeX (x : RegIndex) : Word := 0x0#4 ++ x ++ 0x00#8

/-- The operand fields at the positions of R91, every other bit 0. -/
def Instr.operandBits : Instr → Word
  | .clearDisplay | .ret => 0
  | .jump nnn | .call nnn | .loadIndex nnn | .jumpPlusRegister0 nnn => placeA nnn
  | .skipIfEqualsImmediate x kk | .skipIfNotEqualsImmediate x kk | .loadImmediate x kk | .addImmediate x kk
  | .loadRandomMasked x kk => placeXK x kk
  | .skipIfRegistersEqual x y | .skipIfRegistersNotEqual x y | .move x y | .or x y | .and x y | .xor x y
  | .add x y | .sub x y | .shiftRight x y | .reverseSub x y | .shiftLeft x y => placeXYN x y 0
  | .drawSprite x y n => placeXYN x y n
  | .skipIfKeyPressed x | .skipIfKeyNotPressed x | .readDelayTimer x | .waitForKey x | .setDelayTimer x
  | .setSoundTimer x | .addToIndex x | .loadFontGlyphAddress x | .storeBCD x | .storeRegisters x
  | .loadRegisters x => placeX x

/-- The encoder (R99): the row's match bits with the fields at their positions. -/
def encode (i : Instr) : Word := i.row.pattern ||| i.operandBits

/-- The bytes of an instruction, in the order memory holds them (R62). -/
def encodeBytes (i : Instr) : List Byte := wordBytes (encode i)

/-- One instruction for each row of R95, in the table's order (operands 0). -/
def rowInstrs : List Instr :=
  [.clearDisplay, .ret, .jump 0, .call 0, .skipIfEqualsImmediate 0 0, .skipIfNotEqualsImmediate 0 0,
   .skipIfRegistersEqual 0 0, .loadImmediate 0 0, .addImmediate 0 0, .move 0 0, .or 0 0, .and 0 0] ++
  [.xor 0 0, .add 0 0, .sub 0 0, .shiftRight 0 0, .reverseSub 0 0, .shiftLeft 0 0,
   .skipIfRegistersNotEqual 0 0, .loadIndex 0, .jumpPlusRegister0 0, .loadRandomMasked 0 0, .drawSprite 0 0 0] ++
  [.skipIfKeyPressed 0, .skipIfKeyNotPressed 0, .readDelayTimer 0, .waitForKey 0, .setDelayTimer 0,
   .setSoundTimer 0, .addToIndex 0, .loadFontGlyphAddress 0, .storeBCD 0, .storeRegisters 0, .loadRegisters 0]

/-- The opcode map (R95), 34 rows. -/
def opcodeTable : List OpcodeRow := rowInstrs.map Instr.row

end Sys2Proof
end

