-- ==== Sys2Proof/Machine/Operands.lean ====
section
/-! DEFINITION. The operand forms: immediates at their widths (30_encoding.md R93), the one addressing mode `I + i`
(43_index_memory.md R206), decimal digits (R203) and glyph addresses (R202). -/

namespace Sys2Proof.Machine

/-- A 12-bit immediate as written to `pc` or `I`: zero-extended (R93). -/
def zext12 (nnn : Imm12) : Word := nnn.setWidth 16

/-- A byte zero-extended to 16 bits (R157, R201). -/
def zext8 (b : Byte) : Word := b.setWidth 16

/-- The effective address `I + i`, on unbounded naturals (R66, R206). -/
def effectiveAddr (base : Word) (i : Nat) : Nat := base.toNat + i

/-- Whether the `len` bytes from `base` on leave memory: no byte does when `len` is 0, else the highest address
decides (R66, R206). -/
def rangeOut (base : Word) (len : Nat) : Bool := decide (len ≠ 0 ∧ effectiveAddr base (len - 1) > Config.maxAddr)

/-- The hundreds, tens and ones digits of a byte, each a binary byte 0 to 9 (R203). -/
def bcdDigits (v : Byte) : List Byte :=
  [BitVec.ofNat 8 (v.toNat / 100), BitVec.ofNat 8 (v.toNat / 10 % 10), BitVec.ofNat 8 (v.toNat % 10)]

/-- The address of the glyph of a byte's low nibble (R202). -/
def glyphAddr (v : Byte) : Word := BitVec.ofNat 16 ((v.extractLsb' 0 4).toNat * Config.glyphBytes)

/-- A 4-bit key index as the byte `KeyPress` puts into the waiting register (R246). -/
def keyByte (k : KeyIndex) : Byte := k.setWidth 8

end Sys2Proof.Machine
end

