-- ==== Sys2Proof/Machine/Framebuffer.lean ====
section
/-! DEFINITION. The Framebuffer component (44_display.md R220, R221, R226): 32 rows of 64 pixels, `clear` and `draw`. -/

namespace Sys2Proof.Machine

/-- `fb[row][col]`, `true` = lit (R36, R226). -/
abbrev Framebuffer := Vector (Vector Bool 64) 32

/-- The pixel at `(row, col)`. -/
def Framebuffer.pixel (fb : Framebuffer) (row : Fin 32) (col : Fin 64) : Bool := fb[row][col]

/-- `clear()` (R220): every pixel unlit. -/
def Framebuffer.clear : Framebuffer := Vector.replicate 32 (Vector.replicate 64 false)

/-- Set one pixel. -/
def Framebuffer.setPixel (fb : Framebuffer) (row : Fin 32) (col : Fin 64) (p : Bool) : Framebuffer :=
  fb.set row (fb[row].set col p)

/-- A framebuffer being drawn on, with the collision result so far (R221). -/
abbrev Drawing := Framebuffer × Bool

/-- One pixel of `draw` (R221): XOR the bit in; lit to unlit is a collision, unlit to lit is none. -/
def Drawing.plot (d : Drawing) (row : Fin 32) (col : Fin 64) (bit : Bool) : Drawing :=
  let old := d.1.pixel row col
  let new := old ^^ bit
  (d.1.setPixel row col new, d.2 || (old && !new))

/-- The first `c` pixels of a sprite row (R221): bit `7 - c` goes to column `(x + c) mod 64`. -/
def Drawing.plotBits (d : Drawing) (x : Byte) (row : Fin 32) (b : Byte) : Nat → Drawing
  | 0 => d
  | c + 1 => (Drawing.plotBits d x row b c).plot row (Fin.ofNat 64 (x.toNat + c)) (b.getLsbD (7 - c))

/-- One row of `draw` (R221), all 8 pixels. -/
def Drawing.plotRow (d : Drawing) (x : Byte) (row : Fin 32) (b : Byte) : Drawing :=
  d.plotBits x row b Config.spriteWidth

/-- The rows of `draw` from row offset `r` on (R221): the target row is `(y + r) mod 32`. -/
def Drawing.plotRows (x y : Byte) : Drawing → Nat → List Byte → Drawing
  | d, _, [] => d
  | d, r, b :: bs => Drawing.plotRows x y (d.plotRow x (Fin.ofNat 32 (y.toNat + r)) b) (r + 1) bs

/-- `draw(x, y, bytes)` (R221): the new framebuffer, and whether any pixel went from lit to unlit. -/
def Framebuffer.draw (fb : Framebuffer) (x y : Byte) (bytes : List Byte) : Drawing :=
  Drawing.plotRows x y (fb, false) 0 bytes

end Sys2Proof.Machine
end

