-- ==== Sys2Proof/Machine/Memory.lean ====
section
/-! DEFINITION. The one memory of the core (10_state.md R27, 20_memory.md R60 to R68): 4096 bytes, held as the list of
the cells that differ from their reset contents. -/

namespace Sys2Proof.Machine

/-- Memory as a list of (address, byte) pairs in the canonical form `Memory.wf`. -/
abbrev Memory := List Host.Cell

/-- What an unlisted address reads as: the byte `Reset` leaves there with no image (R41, R61): the font table in
`[0, 80)`, zero everywhere else. -/
def Memory.resetByte (a : Nat) : Byte :=
  if Config.fontBase ≤ a ∧ a < Config.fontBase + Config.fontSize then Config.fontTable.getD (a - Config.fontBase) 0
  else 0

/-- The byte at an address (R65). Total; every access of the machine is range-checked before it (R66, log 16). -/
def Memory.get : Memory → Nat → Byte
  | [], a => Memory.resetByte a
  | (k, b) :: rest, a =>
    if a = k then b else if a < k then Memory.resetByte a else Memory.get rest a

/-- Put a cell in front of the later cells, unless it holds what an unlisted address reads as. -/
def Memory.cons (a : Nat) (b : Byte) (rest : Memory) : Memory :=
  if b = Memory.resetByte a then rest else (a, b) :: rest

/-- Write one byte (R65), keeping the canonical form. -/
def Memory.set : Memory → Nat → Byte → Memory
  | [], a, b => Memory.cons a b []
  | (k, c) :: rest, a, b =>
    if a < k then Memory.cons a b ((k, c) :: rest)
    else if a = k then Memory.cons a b rest
    else (k, c) :: Memory.set rest a b

/-- Write consecutive bytes at ascending addresses (R63). -/
def Memory.setBytes : Memory → Nat → List Byte → Memory
  | m, _, [] => m
  | m, a, b :: bs => Memory.setBytes (Memory.set m a b) (a + 1) bs

/-- Read `n` consecutive bytes at ascending addresses (R63). -/
def Memory.getBytes (m : Memory) : Nat → Nat → List Byte
  | _, 0 => []
  | a, n + 1 => m.get a :: Memory.getBytes m (a + 1) n

/-- The cells of a program image placed from address `a` on (R301), in canonical form. -/
def Memory.ofImage : Nat → List Byte → Memory
  | _, [] => []
  | a, b :: bs => Memory.cons a b (Memory.ofImage (a + 1) bs)

/-- Every cell from address `lo` on lies in memory, differs from its reset byte, and the addresses strictly rise. -/
def Memory.wfFrom : Nat → Memory → Bool
  | _, [] => true
  | lo, (k, b) :: rest =>
    decide (lo ≤ k) && decide (k < Config.memSize) && decide (b ≠ Memory.resetByte k) && Memory.wfFrom (k + 1) rest

/-- The canonical form: addresses strictly rising and below 4096, no cell equal to what an unlisted address reads as.
Equal memories are then equal lists. -/
def Memory.wf (m : Memory) : Bool := Memory.wfFrom 0 m

end Sys2Proof.Machine
end

