-- ==== Sys2Proof/Machine/State.lean ====
section
/-! DEFINITION. The state of the core (10_state.md R20), its faults (60_exceptions.md R270 to R277), the refusals, the
host's transactions (R283) and the state after reset (10_state.md R41). Plain data throughout. -/

namespace Sys2Proof.Machine

/-- The six sub-causes of `AddressOutOfRange` (R273). -/
inductive SubCause where
  /-- `pc + 1 > 4095` at fetch. -/
  | fetchPC
  /-- The highest address read through `I` exceeds 4095. -/
  | indexRead
  /-- The highest address written through `I` exceeds 4095. -/
  | indexWrite
  /-- `Call` with `sp = 16`. -/
  | stackPush
  /-- `Return` with `sp = 0`. -/
  | stackPop
  /-- A key-skip whose register holds more than 15. -/
  | keyIndex
  deriving DecidableEq, Repr

/-- A fault record (R273, R277), what the fault latch holds. A step that raises one answers a NEXT state whose latch
holds it (R10, log 1); no step of this model ends in `Outcome.fault`. -/
inductive Fault where
  /-- Raised by the decode phase of a step on one of the illegal words (R271), with the word and the address it was
  fetched from. Safe: the core halts. -/
  | unrecognizedInstruction (opcode pc : Word)
  /-- Never raised: all 34 instructions are executed (R272, D18). Kept so that the kinds are the source's. Safe. -/
  | unsupportedInstruction (opcode pc : Word)
  /-- Raised by the fetch phase (`fetchPC`, no opcode) or by the one check of an instruction (R273, R276). `addr` is
  the offending address or index as an unbounded natural, where the table of R273 gives one. Safe: the core halts. -/
  | addressOutOfRange (sub : SubCause) (pc : Word) (opcode : Option Word) (addr : Option Nat)
  deriving DecidableEq, Repr

/-- Why a transaction yields no machine at all. -/
inductive Refusal where
  /-- The fixed name for an instruction with no meaning yet: raised by no arm of `exec`, every instruction has its
  meaning. Safe. -/
  | notModelled (mnemonic : String)
  /-- Raised by the host's `Reset` with an image of more than 3584 bytes (R274, R302). Safe: there is no state. -/
  | capacityViolation (length : Nat)
  deriving DecidableEq, Repr

/-- What the host can do to the core, one transaction at a time (R283). -/
inductive Transaction where
  /-- `Step(draw_rnd)` (R130). -/
  | step
  /-- `KeyPress(k)` (R246). -/
  | keyPress (k : KeyIndex)
  /-- `KeyRelease(k)` (R247). -/
  | keyRelease (k : KeyIndex)
  /-- `Reset(image)` (R300). -/
  | reset (image : List Byte)
  /-- `ReadFramebuffer` (R225): no effect on the core. -/
  | readFramebuffer
  /-- `ReadFault` (R277): no effect on the core. -/
  | readFault
  deriving DecidableEq, Repr

/-- The complete architectural state of the core: exactly the twelve items of R20, under the spec's names. -/
structure CoreState where
  /-- The 16 general registers; `V[15]` is `VF` (R21, R22). -/
  V : Vector Byte 16
  /-- The index register (R24). -/
  I : Word
  /-- The program counter (R25). -/
  pc : Word
  /-- The memory (R27). -/
  mem : Memory
  /-- The 16 stack slots (R30). -/
  stack : Vector Word 16
  /-- The count of valid stack entries, 0 to 16 (R31, D6; log 10). -/
  sp : Fin 17
  /-- The delay timer (R32). -/
  dt : Byte
  /-- The sound timer (R33). -/
  st : Byte
  /-- The key-wait marker (R34). -/
  kw : Option RegIndex
  /-- The keypad, `true` = pressed (R35). -/
  keys : Vector Bool 16
  /-- The framebuffer (R36). -/
  fb : Framebuffer
  /-- The fault latch (R37). -/
  fault : Option Fault
  deriving DecidableEq, Repr

/-- What a step of the model is applied to: the core's state, whole and alone in `toCoreState`, and beside it the
inputs that R38(a) and R283 say are NO state of the core. They stand here because a step takes one argument: the
`draw_rnd` of each `Step` (R182) and the transaction to perform. -/
structure State extends CoreState where
  /-- INPUT, the model's own form: how many random bytes have been drawn (log 4). -/
  draws : Nat
  /-- INPUT, the model's own form: the host's coming transactions, the first one next; empty, the host issues `Step`
  (log 5). -/
  host : List Transaction
  deriving DecidableEq, Repr

/-- The core after a successful `Reset` of an empty image (R41, R300). The values of `mem` and `pc` are the source's,
the others the spec's decision D4 (log 2). -/
def CoreState.reset : CoreState where
  V := Vector.replicate 16 0
  I := 0
  pc := BitVec.ofNat 16 Config.progBase
  mem := []
  stack := Vector.replicate 16 0
  sp := 0
  dt := 0
  st := 0
  kw := none
  keys := Vector.replicate 16 false
  fb := Framebuffer.clear
  fault := none

/-- The core after reset; DESIGN CHOICE: the inputs start at 0 and empty (log 4, 5). -/
def State.reset : State where
  toCoreState := CoreState.reset
  draws := 0
  host := []

end Sys2Proof.Machine
end

