-- ==== Sys2Proof/Machine/Ops.lean ====
section
/-! DEFINITION. The named operations the meanings are written over: registers, `pc`, taking a fault, memory ranges,
the stack, the keypad, the timer tick and the fetch. -/

namespace Sys2Proof.Machine

/-- What a transaction or an instruction answers. -/
abbrev Result := Host.Outcome State Fault Refusal

/-- The index of the flag register `VF` (R22). -/
abbrev VF : RegIndex := 0xF#4

/-- Read `V[r]`, a full byte, for every index (R21). -/
def State.reg (s : State) (r : RegIndex) : Byte := s.V[r.toNat]'(r.isLt)

/-- Write `V[r]`; no register is hardwired (R21). -/
def State.setReg (s : State) (r : RegIndex) (b : Byte) : State := { s with V := s.V.set r.toNat b r.isLt }

/-- `pc <- pc + n` (R26). The 16-bit sum never wraps in a reachable state (R26, N25; log 9). -/
def State.advance (s : State) (n : Nat) : State := { s with pc := s.pc + BitVec.ofNat 16 n }

/-- "advance by 4 if predicate holds, else 2" (R153 to R156, R240, R241). -/
def State.skipIf (s : State) (p : Bool) : State := s.advance (if p then 4 else 2)

/-- The write pattern of the flag-setting instructions (R170(e)): the flag first, then the destination, so that with
`x = 0xF` the result overwrites the flag; then `pc + 2`. -/
def State.setFlagAndResult (s : State) (x : RegIndex) (flag : Bool) (result : Byte) : State :=
  ((s.setReg VF (flagByte flag)).setReg x result).advance 2

/-- TAKING A FAULT (R277), the one operation of every fault: the latch holds the record, nothing else changes (R279)
and control goes nowhere. There is no return from a fault (R281): the only exit is `State.resetWith`. -/
def State.raise (s : State) (f : Fault) : Result := .next { s with fault := some f }

/-- The record of an execute-phase `AddressOutOfRange`: the instruction's own address and word (R273, R277). The word
is the encoding of the decoded instruction, which is the word fetched (R99). -/
def State.outOfRange (s : State) (sub : SubCause) (i : Instr) (addr : Option Nat) : Fault :=
  .addressOutOfRange sub s.pc (some (encode i)) addr

/-- Check the `len` bytes at `I` before the instruction `i` writes anything (R66, R206): outside memory the fault
records the highest address, inside the answer is `done`. -/
def State.guardRange (s : State) (sub : SubCause) (i : Instr) (len : Nat) (done : State) : Result :=
  if rangeOut s.I len then s.raise (s.outOfRange sub i (some (effectiveAddr s.I (len - 1)))) else .next done

/-- The bytes of `V[0..x]`, ascending (R204). -/
def State.regsUpTo (s : State) (x : RegIndex) : List Byte := s.V.toList.take (x.toNat + 1)

/-- Store bytes at `I, I+1, ...` (R203, R204). -/
def State.storeAtI (s : State) (bytes : List Byte) : State := { s with mem := s.mem.setBytes s.I.toNat bytes }

/-- Read `n` bytes at `I, I+1, ...` (R222). -/
def State.loadAtI (s : State) (n : Nat) : List Byte := s.mem.getBytes s.I.toNat n

/-- `V[i] <- mem[I + i]` for the first `n` registers, ascending (R205). -/
def State.loadRegs (s : State) : Nat → State
  | 0 => s
  | n + 1 => (s.loadRegs n).setReg (BitVec.ofNat 4 n) (s.mem.get (effectiveAddr s.I n))

/-- Push an address (R31, R152); `none` when 16 entries are valid. -/
def State.push (s : State) (a : Word) : Option State :=
  if h : s.sp.val < 16 then
    some { s with stack := s.stack.set s.sp.val a h, sp := ⟨s.sp.val + 1, Nat.succ_lt_succ h⟩ }
  else none

/-- Pop an address (R31, R150); `none` when no entry is valid. The slot keeps its value. -/
def State.pop (s : State) : Option (Word × State) :=
  match s.sp with
  | ⟨0, _⟩ => none
  | ⟨j + 1, h⟩ =>
    some (s.stack[j]'(Nat.lt_of_succ_lt_succ h), { s with sp := ⟨j, Nat.lt_of_succ_lt h⟩ })

/-- The level of key `k` (R35). -/
def State.key (s : State) (k : KeyIndex) : Bool := s.keys[k.toNat]'(k.isLt)

/-- Set the level of key `k` (R246, R247). -/
def State.setKey (s : State) (k : KeyIndex) (pressed : Bool) : State :=
  { s with keys := s.keys.set k.toNat pressed k.isLt }

/-- A key-skip (R240, R241): the VALUE of `V[x]` is the key index, and above 15 it faults, unmasked (D16); else skip
when the key's level is `level`. -/
def State.keySkip (s : State) (i : Instr) (x : RegIndex) (level : Bool) : Result :=
  let k := s.reg x
  if k.toNat > 15 then s.raise (s.outOfRange .keyIndex i (some k.toNat))
  else .next (s.skipIf (s.key (k.setWidth 4) == level))

/-- The next random byte, the step's `draw_rnd` (R182): free, and the counter moves on so that each draw is fresh. -/
def State.draw (s : State) : Byte × State := (Config.drawRnd s.draws, { s with draws := s.draws + 1 })

/-- `LoadRandomMasked` with the drawn byte given (R182). -/
def State.loadMasked (s : State) (x : RegIndex) (rnd kk : Byte) : State := (s.setReg x (rnd &&& kk)).advance 2

/-- Count down by 1, staying at 0 (R32, R131). -/
def countDown (t : Byte) : Byte := if t = 0 then 0 else t - 1

/-- The timer tick, phase 2 of a step (R131): the delay timer, and not the sound timer (R33). -/
def State.tick (s : State) : State :=
  { s with dt := countDown s.dt, st := if Config.soundTimerTicks then countDown s.st else s.st }

/-- The fetch, phase 4 of a step (R133): the big-endian word at `pc`, or `FetchPC` with the first fetch address
beyond 4095 and no opcode. Any parity of `pc` will do (R64). -/
def State.fetch (s : State) : Except Fault Word :=
  let a := s.pc.toNat
  if a + 1 > Config.maxAddr then
    .error (.addressOutOfRange .fetchPC s.pc none (some (if a > Config.maxAddr then a else a + 1)))
  else .ok (bigEndian (s.mem.get a) (s.mem.get (a + 1)))

/-- The code of a fault's kind (R270, R275). -/
def Fault.code : Fault → Nat
  | .unrecognizedInstruction _ _ => 1
  | .unsupportedInstruction _ _ => 2
  | .addressOutOfRange _ _ _ _ => 3

/-- The number of a sub-cause (R273, R275). -/
def SubCause.code : SubCause → Nat
  | .fetchPC => 1
  | .indexRead => 2
  | .indexWrite => 3
  | .stackPush => 4
  | .stackPop => 5
  | .keyIndex => 6

/-- The `sub` of a fault record (R277), for `AddressOutOfRange` only. -/
def Fault.sub : Fault → Option SubCause
  | .addressOutOfRange sub _ _ _ => some sub
  | _ => none

/-- The `pc` of a fault record (R277). -/
def Fault.pc : Fault → Word
  | .unrecognizedInstruction _ pc => pc
  | .unsupportedInstruction _ pc => pc
  | .addressOutOfRange _ pc _ _ => pc

/-- The `opcode` of a fault record (R277). -/
def Fault.opcode : Fault → Option Word
  | .unrecognizedInstruction op _ => some op
  | .unsupportedInstruction op _ => some op
  | .addressOutOfRange _ _ op _ => op

/-- The `addr` of a fault record (R277). -/
def Fault.addr : Fault → Option Nat
  | .addressOutOfRange _ _ _ addr => addr
  | _ => none

end Sys2Proof.Machine
end

