-- ==== Sys2Proof/Machine/Alu.lean ====
section
/-! DEFINITION. The register and ALU instructions (42_alu.md). Destination and first operand are `V[x]`, the second
operand `V[y]` (R170(d)); operands are sampled before any write (R170(e)). -/

namespace Sys2Proof.Machine

/-- `LoadImmediate(x, kk)` (R171). -/
def execLoadImmediate (x : RegIndex) (kk : Byte) (s : State) : Result := .next ((s.setReg x kk).advance 2)

/-- `AddImmediate(x, kk)` (R172): wraps at 8 bits, no flag. -/
def execAddImmediate (x : RegIndex) (kk : Byte) (s : State) : Result :=
  .next ((s.setReg x (s.reg x + kk)).advance 2)

/-- `Move(x, y)` (R173). -/
def execMove (x y : RegIndex) (s : State) : Result := .next ((s.setReg x (s.reg y)).advance 2)

/-- `Or(x, y)` (R174): no flag. -/
def execOr (x y : RegIndex) (s : State) : Result := .next ((s.setReg x (s.reg x ||| s.reg y)).advance 2)

/-- `And(x, y)` (R175): no flag. -/
def execAnd (x y : RegIndex) (s : State) : Result := .next ((s.setReg x (s.reg x &&& s.reg y)).advance 2)

/-- `Xor(x, y)` (R176): no flag. -/
def execXor (x y : RegIndex) (s : State) : Result := .next ((s.setReg x (s.reg x ^^^ s.reg y)).advance 2)

/-- `Add(x, y)` (R177): carry to `VF`, low 8 bits of the sum to `V[x]`. -/
def execAdd (x y : RegIndex) (s : State) : Result :=
  .next (s.setFlagAndResult x (carryFlag (s.reg x) (s.reg y)) (s.reg x + s.reg y))

/-- `Sub(x, y)` (R178): `VF` = 1 exactly when `V[x] > V[y]`, strictly. -/
def execSub (x y : RegIndex) (s : State) : Result :=
  .next (s.setFlagAndResult x (notBorrowFlag (s.reg x) (s.reg y)) (s.reg x - s.reg y))

/-- `ShiftRight(x, y)` (R179): `V[x]` in place by one bit; `y` is carried and ignored (D11). -/
def execShiftRight (x _y : RegIndex) (s : State) : Result :=
  .next (s.setFlagAndResult x (shiftedOutLow (s.reg x)) (s.reg x >>> 1))

/-- `ReverseSub(x, y)` (R180, D13): minuend `V[y]`, subtrahend and destination `V[x]`. -/
def execReverseSub (x y : RegIndex) (s : State) : Result :=
  .next (s.setFlagAndResult x (notBorrowFlag (s.reg y) (s.reg x)) (s.reg y - s.reg x))

/-- `ShiftLeft(x, y)` (R181): `V[x]` in place by one bit; `y` is carried and ignored (D11). -/
def execShiftLeft (x _y : RegIndex) (s : State) : Result :=
  .next (s.setFlagAndResult x (shiftedOutHigh (s.reg x)) (s.reg x <<< 1))

/-- `LoadRandomMasked(x, kk)` (R182): the free random byte AND the mask. -/
def execLoadRandomMasked (x : RegIndex) (kk : Byte) (s : State) : Result :=
  .next (s.draw.2.loadMasked x s.draw.1 kk)

end Sys2Proof.Machine
end

