-- ==== Sys2Proof/Machine/Control.lean ====
section
/-! DEFINITION. Jumps, call, return and the register skips (41_control_transfer.md). -/

namespace Sys2Proof.Machine

/-- `Return` (R150): pop, and resume after the `Call` that pushed; an empty stack faults (D5). -/
def execReturn (s : State) : Result :=
  match s.pop with
  | none => s.raise (s.outOfRange .stackPop .ret none)
  | some (a, t) => .next { t with pc := a + 2 }

/-- `Jump(nnn)` (R151): "program counter becomes `addr` exactly". -/
def execJump (nnn : Imm12) (s : State) : Result := .next { s with pc := zext12 nnn }

/-- `Call(nnn)` (R152): push the address of this instruction, then jump; a full stack faults (D5). -/
def execCall (nnn : Imm12) (s : State) : Result :=
  match s.push s.pc with
  | none => s.raise (s.outOfRange .stackPush (.call nnn) none)
  | some t => .next { t with pc := zext12 nnn }

/-- `SkipIfEqualsImmediate(x, kk)` (R153). -/
def execSkipIfEqualsImmediate (x : RegIndex) (kk : Byte) (s : State) : Result :=
  .next (s.skipIf (s.reg x == kk))

/-- `SkipIfNotEqualsImmediate(x, kk)` (R154). -/
def execSkipIfNotEqualsImmediate (x : RegIndex) (kk : Byte) (s : State) : Result :=
  .next (s.skipIf (s.reg x != kk))

/-- `SkipIfRegistersEqual(x, y)` (R155). -/
def execSkipIfRegistersEqual (x y : RegIndex) (s : State) : Result :=
  .next (s.skipIf (s.reg x == s.reg y))

/-- `SkipIfRegistersNotEqual(x, y)` (R156). -/
def execSkipIfRegistersNotEqual (x y : RegIndex) (s : State) : Result :=
  .next (s.skipIf (s.reg x != s.reg y))

/-- `JumpPlusRegister0(nnn)` (R157, D14): `nnn + V[0]`, not reduced modulo 4096. -/
def execJumpPlusRegister0 (nnn : Imm12) (s : State) : Result :=
  .next { s with pc := zext12 nnn + zext8 (s.reg 0) }

end Sys2Proof.Machine
end

