-- ==== Sys2Proof/Machine/Display.lean ====
section
/-! DEFINITION. The display instructions (44_display.md R222, R223). -/

namespace Sys2Proof.Machine

/-- `ClearDisplay` (R223): `VF` is not written. -/
def execClearDisplay (s : State) : Result := .next (State.advance { s with fb := Framebuffer.clear } 2)

/-- `DrawSprite(x, y, n)` (R222): `n` sprite rows from `I` at column `V[x]`, row `V[y]`, the origin sampled before
`VF` gets the collision. `n = 0` reads nothing, cannot fault and writes `VF = 0` (D22). -/
def execDrawSprite (x y : RegIndex) (n : Nibble) (s : State) : Result :=
  let drawn := s.fb.draw (s.reg x) (s.reg y) (s.loadAtI n.toNat)
  s.guardRange .indexRead (.drawSprite x y n) n.toNat
    ((State.setReg { s with fb := drawn.1 } VF (flagByte drawn.2)).advance 2)

end Sys2Proof.Machine
end

