-- ==== Sys2Proof/Machine/Index.lean ====
section
/-! DEFINITION. The index register, stores and loads (43_index_memory.md). `I` is unchanged by every transfer (R206). -/

namespace Sys2Proof.Machine

/-- `LoadIndex(nnn)` (R200). -/
def execLoadIndex (nnn : Imm12) (s : State) : Result := .next (State.advance { s with I := zext12 nnn } 2)

/-- `AddToIndex(x)` (R201, D24): wraps at 16 bits, no flag. -/
def execAddToIndex (x : RegIndex) (s : State) : Result :=
  .next (State.advance { s with I := s.I + zext8 (s.reg x) } 2)

/-- `LoadFontGlyphAddress(x)` (R202). -/
def execLoadFontGlyphAddress (x : RegIndex) (s : State) : Result :=
  .next (State.advance { s with I := glyphAddr (s.reg x) } 2)

/-- `StoreBCD(x)` (R203): three digits at `I`, `I+1`, `I+2`. -/
def execStoreBCD (x : RegIndex) (s : State) : Result :=
  s.guardRange .indexWrite (.storeBCD x) 3 ((s.storeAtI (bcdDigits (s.reg x))).advance 2)

/-- `StoreRegisters(x)` (R204): `V[0..x]` at `I..I+x`. -/
def execStoreRegisters (x : RegIndex) (s : State) : Result :=
  s.guardRange .indexWrite (.storeRegisters x) (x.toNat + 1) ((s.storeAtI (s.regsUpTo x)).advance 2)

/-- `LoadRegisters(x)` (R205): `V[0..x]` from `I..I+x`. -/
def execLoadRegisters (x : RegIndex) (s : State) : Result :=
  s.guardRange .indexRead (.loadRegisters x) (x.toNat + 1) ((s.loadRegs (x.toNat + 1)).advance 2)

end Sys2Proof.Machine
end

