-- ==== Sys2Proof/Machine/Keypad.lean ====
section
/-! DEFINITION. The keypad and timer instructions (45_keypad_timers.md R240 to R245). -/

namespace Sys2Proof.Machine

/-- `SkipIfKeyPressed(x)` (R240). -/
def execSkipIfKeyPressed (x : RegIndex) (s : State) : Result := s.keySkip (.skipIfKeyPressed x) x true

/-- `SkipIfKeyNotPressed(x)` (R241). -/
def execSkipIfKeyNotPressed (x : RegIndex) (s : State) : Result := s.keySkip (.skipIfKeyNotPressed x) x false

/-- `WaitForKey(x)` (R242): arms the gate for the NEXT step; `pc` moves on now, no key is looked at. -/
def execWaitForKey (x : RegIndex) (s : State) : Result := .next (State.advance { s with kw := some x } 2)

/-- `ReadDelayTimer(x)` (R243): `dt` as it is after this step's tick. -/
def execReadDelayTimer (x : RegIndex) (s : State) : Result := .next ((s.setReg x s.dt).advance 2)

/-- `SetDelayTimer(x)` (R244). -/
def execSetDelayTimer (x : RegIndex) (s : State) : Result := .next (State.advance { s with dt := s.reg x } 2)

/-- `SetSoundTimer(x)` (R245). -/
def execSetSoundTimer (x : RegIndex) (s : State) : Result := .next (State.advance { s with st := s.reg x } 2)

end Sys2Proof.Machine
end

