-- ==== Sys2Proof/Machine/Cycle.lean ====
section
/-! DEFINITION. The step of the core (40_step_cycle.md R130): halted gate, timer tick, key-wait gate, fetch, decode,
execute. -/

namespace Sys2Proof.Machine

/-- Phases 4 to 7 of a step (R130): fetch, decode, execute. The first failing phase raises the one fault (R280), and
`pc` is moved by the instruction's own meaning, last (R135). -/
def State.runInstruction (s : State) : Result :=
  match s.fetch with
  | .error f => s.raise f
  | .ok op =>
    match decode op with
    | .error _ => s.raise (.unrecognizedInstruction op s.pc)
    | .ok i => exec i s

/-- `Step(draw_rnd)` (R130): a halted core does nothing (R136); else the timer ticks first (R131), and a pending
key-wait ends the step before the fetch (R132). -/
def State.stepCore (s : State) : Result :=
  match s.fault with
  | some _ => .next s
  | none =>
    match s.tick.kw with
    | some _ => .next s.tick
    | none => s.tick.runInstruction

end Sys2Proof.Machine
end

