-- ==== Sys2Proof/Machine/HostOps.lean ====
section
/-! DEFINITION. The host's transactions (60_exceptions.md R283): reset, key press, key release, the read ports, and
the host wrapper `Cycle` (70_reset_and_hazards.md R315). -/

namespace Sys2Proof.Machine

/-- `Reset(image)` (R300, R301): the reset state with the image at 0x200, or a refusal and no state when the image is
longer than 3584 bytes (R302). It depends on no earlier state, the fault latch included (R306). -/
def State.resetWith (image : List Byte) : Except Refusal State :=
  if image.length > Config.progMax then .error (.capacityViolation image.length)
  else .ok { State.reset with mem := Memory.ofImage Config.progBase image }

/-- `KeyPress(k)` (R246): nothing on a halted core; else the key is marked, and a pending key-wait receives it,
whether or not the key was already down (D30). -/
def State.keyPress (s : State) (k : KeyIndex) : State :=
  match s.fault with
  | some _ => s
  | none =>
    match s.kw with
    | none => s.setKey k true
    | some r => { (s.setKey k true).setReg r (keyByte k) with kw := none }

/-- `KeyRelease(k)` (R247): nothing on a halted core; else the key is unmarked, with no effect on the key-wait. -/
def State.keyRelease (s : State) (k : KeyIndex) : State :=
  match s.fault with
  | some _ => s
  | none => s.setKey k false

/-- `ReadFramebuffer` (R225): all 2048 pixels. -/
def State.readFramebuffer (s : State) : Framebuffer := s.fb

/-- `ReadFault` (R277): the latch. -/
def State.readFault (s : State) : Option Fault := s.fault

/-- The `Reset` transaction in the host's sequence: the core starts anew; the host's own coming transactions and the
count of bytes drawn so far, which are no state of the core, go on (log 5). -/
def State.resetTransaction (s : State) (image : List Byte) : Result :=
  match State.resetWith image with
  | .error r => .refused r
  | .ok t => .next { t with draws := s.draws, host := s.host }

/-- One transaction of the host (R283). The two reads return their value to the host and change nothing. -/
def State.transact (s : State) : Transaction → Result
  | .step => s.stepCore
  | .keyPress k => .next (s.keyPress k)
  | .keyRelease k => .next (s.keyRelease k)
  | .reset image => s.resetTransaction image
  | .readFramebuffer => .next s
  | .readFault => .next s

/-- The next transaction: the first one the host has listed, else a `Step` (log 5). -/
def State.nextTransaction (s : State) : Result :=
  match s.host with
  | [] => s.stepCore
  | t :: rest => State.transact { s with host := rest } t

/-- `k` Steps one after the other. -/
def State.steps (s : State) : Nat → Result
  | 0 => .next s
  | k + 1 =>
    match s.stepCore with
    | .next t => t.steps k
    | r => r

/-- The host wrapper `Cycle(steps)` (R315): `max(steps - 1, 0)` Steps, the source's off-by-one kept. The product
`round(elapsed_seconds * clock_rate)` that gives `steps` is host software (R4(f)). -/
def State.cycle (s : State) (steps : Nat) : Result := s.steps (steps - 1)

end Sys2Proof.Machine
end

