-- ==== Sys2Proof/Machine/Step.lean ====
section
/-! DEFINITION. The step of the model, and the placing of an instruction where the next step fetches. -/

namespace Sys2Proof.Machine

/-- One step: the host's next transaction, which is a `Step` of the core (R130) where the host has listed none. -/
def step (s : State) : Host.Outcome State Fault Refusal := s.nextTransaction

/-- `s` with the instruction of bits `w` (its first `nbits` bits, the others 0) where the next step fetches, and with
what a fetch takes: the next transaction is a `Step`, the core is not halted (R136), no key-wait is pending (R132),
and `pc` is an address a word can be fetched from (R133), 0x200 if it was none (log 8). -/
def State.withFetchWord (s : State) (nbits w : Nat) : State :=
  let pc := if s.pc.toNat + 1 > Config.maxAddr then BitVec.ofNat 16 Config.progBase else s.pc
  { s with
    pc := pc
    mem := s.mem.setBytes pc.toNat (wordBytes (BitVec.ofNat 16 (w % 2 ^ nbits)))
    kw := none
    fault := none
    host := [] }

end Sys2Proof.Machine
end

