-- ==== Sys2Proof/Safety.lean ====
section
/-! DEFINITION. What claims speak of: a running core, the invariant of reachable states (10_state.md R42), the
tables of who writes what (R23, R26, R276), and frames: what an instruction leaves alone. -/

namespace Sys2Proof.Machine

/-! ## Runs -/

/-- The core is not halted (R278). A program "runs to completion" only while this holds. -/
abbrev State.running (s : State) : Prop := s.fault = none

/-- The host has listed nothing, so that it issues `Step` after `Step` (R283; log 5). -/
abbrev State.hostSteps (s : State) : Prop := s.host = []

/-- The next transaction is a `Step` of the core, listed or not (R283; log 5). -/
abbrev State.stepsNext (s : State) : Prop := s.host = [] ∨ s.host = .step :: s.host.tail

/-- The next transaction is a `Step` that reaches its fetch phase: not halted, no key-wait (R136, R132). -/
abbrev State.executing (s : State) : Prop := s.stepsNext ∧ s.running ∧ s.kw = none

/-- The instruction the next `Step` of the core executes, if it executes one (R139). -/
def State.nextInstr (s : State) : Option Instr :=
  if s.fault = none ∧ s.kw = none then
    match s.fetch with
    | .ok op =>
      match decode op with
      | .ok i => some i
      | .error _ => none
    | .error _ => none
  else none

/-- The next transaction is a `Reset` (R283). -/
def State.resetsNext (s : State) : Prop := ∃ image rest, s.host = .reset image :: rest

/-- The answer with the count of drawn bytes set, for comparing runs that differ only in the random input (R138). -/
def withDraws (n : Nat) : Result → Result
  | .next t => .next { t with draws := n }
  | r => r

/-- The invariant of every reachable state (R42, R277, R280): (c) every valid stack entry is an address a `Call` was
fetched from; (d) `pc` at most 0x10FE; a halted core has no key-wait pending and its record names the `pc` it halted
at; and memory in canonical form, which is the model's own (log 12). Parts (a), (b) of R42 hold by the types of `sp`
and `kw`. -/
structure State.Inv (s : State) : Prop where
  mem_wf : s.mem.wf = true
  pc_le : s.pc.toNat ≤ 0x10FE
  stack_le : ∀ j : Fin 16, j.val < s.sp.val → s.stack[j].toNat ≤ 0xFFE
  fault_kw : s.fault ≠ none → s.kw = none
  fault_pc : ∀ f, s.fault = some f → f.pc = s.pc

/-- States the machine can come to from reset, whatever the host does (R283): it may list any transactions. -/
inductive Reachable : State → Prop where
  | reset : Reachable State.reset
  | host {s : State} (ts : List Transaction) : Reachable s → Reachable { s with host := ts }
  | step {s t : State} : Reachable s → step s = .next t → Reachable t

/-! ## Who writes what -/

/-- The registers an instruction may write (the last column of R23; "W F" is `VF`). -/
def regWrites : Instr → RegIndex → Prop
  | .loadImmediate x _, r | .addImmediate x _, r | .move x _, r | .or x _, r | .and x _, r | .xor x _, r
  | .loadRandomMasked x _, r | .readDelayTimer x, r => r = x
  | .add x _, r | .sub x _, r | .reverseSub x _, r | .shiftRight x _, r | .shiftLeft x _, r => r = x ∨ r = VF
  | .drawSprite _ _ _, r => r = VF
  | .loadRegisters x, r => r.toNat ≤ x.toNat
  | .clearDisplay, _ | .ret, _ | .jump _, _ | .call _, _ | .skipIfEqualsImmediate _ _, _
  | .skipIfNotEqualsImmediate _ _, _ | .skipIfRegistersEqual _ _, _ | .skipIfRegistersNotEqual _ _, _
  | .loadIndex _, _ | .jumpPlusRegister0 _, _ | .skipIfKeyPressed _, _ | .skipIfKeyNotPressed _, _
  | .waitForKey _, _ | .setDelayTimer _, _ | .setSoundTimer _, _ | .addToIndex _, _ | .loadFontGlyphAddress _, _
  | .storeBCD _, _ | .storeRegisters _, _ => False

/-- The one sub-cause an instruction can raise once fetched and decoded (R276); the other 26 raise nothing. -/
def faultSub : Instr → Option SubCause
  | .call _ => some .stackPush
  | .ret => some .stackPop
  | .drawSprite _ _ _ | .loadRegisters _ => some .indexRead
  | .storeBCD _ | .storeRegisters _ => some .indexWrite
  | .skipIfKeyPressed _ | .skipIfKeyNotPressed _ => some .keyIndex
  | .clearDisplay | .jump _ | .skipIfEqualsImmediate _ _ | .skipIfNotEqualsImmediate _ _
  | .skipIfRegistersEqual _ _ | .skipIfRegistersNotEqual _ _ | .loadImmediate _ _ | .addImmediate _ _ | .move _ _
  | .or _ _ | .and _ _ | .xor _ _ | .add _ _ | .sub _ _ | .shiftRight _ _ | .reverseSub _ _ | .shiftLeft _ _
  | .loadIndex _ | .jumpPlusRegister0 _ | .loadRandomMasked _ _ | .readDelayTimer _ | .waitForKey _
  | .setDelayTimer _ | .setSoundTimer _ | .addToIndex _ | .loadFontGlyphAddress _ => none

/-- The next `pc` of an instruction that raises no fault (the table of R26), as a number. -/
def nextPc (s : State) : Instr → Nat
  | .jump nnn | .call nnn => nnn.toNat
  | .ret => (s.stack[s.sp.val - 1]'(by omega)).toNat + 2
  | .jumpPlusRegister0 nnn => nnn.toNat + (s.reg 0).toNat
  | .skipIfEqualsImmediate x kk => s.pc.toNat + if s.reg x = kk then 4 else 2
  | .skipIfNotEqualsImmediate x kk => s.pc.toNat + if s.reg x = kk then 2 else 4
  | .skipIfRegistersEqual x y => s.pc.toNat + if s.reg x = s.reg y then 4 else 2
  | .skipIfRegistersNotEqual x y => s.pc.toNat + if s.reg x = s.reg y then 2 else 4
  | .skipIfKeyPressed x => s.pc.toNat + if s.key ((s.reg x).setWidth 4) = true then 4 else 2
  | .skipIfKeyNotPressed x => s.pc.toNat + if s.key ((s.reg x).setWidth 4) = true then 2 else 4
  | .clearDisplay | .loadImmediate _ _ | .addImmediate _ _ | .move _ _ | .or _ _ | .and _ _ | .xor _ _ | .add _ _
  | .sub _ _ | .shiftRight _ _ | .reverseSub _ _ | .shiftLeft _ _ | .loadIndex _ | .loadRandomMasked _ _
  | .drawSprite _ _ _ | .readDelayTimer _ | .waitForKey _ | .setDelayTimer _ | .setSoundTimer _ | .addToIndex _
  | .loadFontGlyphAddress _ | .storeBCD _ | .storeRegisters _ | .loadRegisters _ => s.pc.toNat + 2

/-- The byte an instruction stores at an address, if it stores one there (R203, R204; R27 for the other 32). -/
def storedByte (s : State) : Instr → Nat → Option Byte
  | .storeBCD x, a =>
    if a = effectiveAddr s.I 0 then some (BitVec.ofNat 8 ((s.reg x).toNat / 100))
    else if a = effectiveAddr s.I 1 then some (BitVec.ofNat 8 ((s.reg x).toNat / 10 % 10))
    else if a = effectiveAddr s.I 2 then some (BitVec.ofNat 8 ((s.reg x).toNat % 10))
    else none
  | .storeRegisters x, a =>
    if s.I.toNat ≤ a ∧ a ≤ effectiveAddr s.I x.toNat then some (s.reg (BitVec.ofNat 4 (a - s.I.toNat))) else none
  | .clearDisplay, _ | .ret, _ | .jump _, _ | .call _, _ | .skipIfEqualsImmediate _ _, _
  | .skipIfNotEqualsImmediate _ _, _ | .skipIfRegistersEqual _ _, _ | .skipIfRegistersNotEqual _ _, _
  | .loadImmediate _ _, _ | .addImmediate _ _, _ | .move _ _, _ | .or _ _, _ | .and _ _, _ | .xor _ _, _
  | .add _ _, _ | .sub _ _, _ | .shiftRight _ _, _ | .reverseSub _ _, _ | .shiftLeft _ _, _ | .loadIndex _, _
  | .jumpPlusRegister0 _, _ | .loadRandomMasked _ _, _ | .drawSprite _ _ _, _ | .skipIfKeyPressed _, _
  | .skipIfKeyNotPressed _, _ | .readDelayTimer _, _ | .waitForKey _, _ | .setDelayTimer _, _
  | .setSoundTimer _, _ | .addToIndex _, _ | .loadFontGlyphAddress _, _ | .loadRegisters _, _ => none

/-! ## Sprites -/

/-- The sprite bit that falls on `(row, col)` for a sprite at column `x`, row `y` (R221), found from the pixel and
not by the loops of `draw`: the pixel's offsets from the origin, modulo the grid, pick the byte and the bit. -/
def spriteBit (x y : Byte) (bytes : List Byte) (row : Fin 32) (col : Fin 64) : Bool :=
  let r := (row.val + 256 - y.toNat) % 32
  let c := (col.val + 256 - x.toNat) % 64
  decide (c < 8) && (bytes.getD r 0).getLsbD (7 - c)

/-! ## Frames -/

/-- Every byte of memory reads the same in both states. -/
def sameMem (s t : State) : Prop := ∀ a, t.mem.get a = s.mem.get a

/-- Every register outside `W` reads the same in both states. -/
def sameRegsBut (W : RegIndex → Prop) (s t : State) : Prop := ∀ r, ¬ W r → t.reg r = s.reg r

/-- Every register reads the same in both states. -/
def sameRegs (s t : State) : Prop := ∀ r, t.reg r = s.reg r

/-- The stack and its pointer are the same in both states. -/
def sameStack (s t : State) : Prop := t.stack = s.stack ∧ t.sp = s.sp

/-- The timers are the same in both states. -/
def sameTimers (s t : State) : Prop := t.dt = s.dt ∧ t.st = s.st

/-- The keypad, the fault latch and the host's coming transactions are the same in both states. -/
def sameOutside (s t : State) : Prop := t.keys = s.keys ∧ t.fault = s.fault ∧ t.host = s.host

/-- The frame of an instruction that writes no more than the registers in `W` and `pc`. -/
def onlyRegsChange (W : RegIndex → Prop) (s t : State) : Prop :=
  sameRegsBut W s t ∧ t.I = s.I ∧ sameMem s t ∧ sameStack s t ∧ sameTimers s t ∧ t.kw = s.kw ∧ t.fb = s.fb ∧
    t.draws = s.draws ∧ sameOutside s t

/-- The frame of an instruction that writes no more than `pc`. -/
def onlyPcChanges (s t : State) : Prop := onlyRegsChange (fun _ => False) s t

/-- The frame of an instruction that writes no more than `I` and `pc`. -/
def onlyIndexChanges (s t : State) : Prop :=
  sameRegs s t ∧ sameMem s t ∧ sameStack s t ∧ sameTimers s t ∧ t.kw = s.kw ∧ t.fb = s.fb ∧ t.draws = s.draws ∧
    sameOutside s t

/-- The frame of an instruction that writes no more than memory and `pc`. -/
def onlyMemChanges (s t : State) : Prop :=
  sameRegs s t ∧ t.I = s.I ∧ sameStack s t ∧ sameTimers s t ∧ t.kw = s.kw ∧ t.fb = s.fb ∧ t.draws = s.draws ∧
    sameOutside s t

/-- The frame of an instruction that writes no more than the stack, its pointer and `pc`. -/
def onlyStackChanges (s t : State) : Prop :=
  sameRegs s t ∧ t.I = s.I ∧ sameMem s t ∧ sameTimers s t ∧ t.kw = s.kw ∧ t.fb = s.fb ∧ t.draws = s.draws ∧
    sameOutside s t

end Sys2Proof.Machine
end

