-- ==== Sys2Proof/Certificates/Slice0/Obligations.lean ====
section
/-! DEFINITION. The statements for the provers. Each docstring names the rule of spec/ it formalises; where a clause
rests on a decision the spec marks as its own (92_eei_decisions.md D<n>) or on the model's choice (log <n>), it says
so. -/

open Sys2Proof Sys2Proof.Machine

/-! ## Encoding (30_encoding.md) -/

/-- Words written out from the patterns of R95, one from each format of R92 and each dispatching family, decode to
the instruction they stand for; and words R97, R98 and R100 name illegal do not decode. -/
def Obligations.SampleWordsDecodeAsSpelled : Prop :=
  decode 0x00E0 = .ok .clearDisplay ∧ decode 0x2206 = .ok (.call 0x206) ∧
  decode 0x3F01 = .ok (.skipIfEqualsImmediate 0xF 0x01) ∧ decode 0x9AB0 = .ok (.skipIfRegistersNotEqual 0xA 0xB) ∧
  decode 0x8127 = .ok (.reverseSub 0x1 0x2) ∧ decode 0xD125 = .ok (.drawSprite 0x1 0x2 0x5) ∧
  decode 0xE3A1 = .ok (.skipIfKeyNotPressed 0x3) ∧ decode 0xF265 = .ok (.loadRegisters 0x2) ∧
  decode 0x01E0 = .error (.unrecognized 0x01E0) ∧ decode 0x5121 = .error (.unrecognized 0x5121) ∧
  decode 0x8128 = .error (.unrecognized 0x8128) ∧ decode 0xF100 = .error (.unrecognized 0xF100)

/-- R99, whole: the encoder is match bits with the fields placed; a word that decodes re-encodes to itself; an encoded
instruction decodes to itself, with every operand at every value. -/
def Obligations.DecodeAndEncodeAreInverse : Prop :=
  (∀ i : Instr, encode i = i.row.pattern ||| i.operandBits) ∧
  (∀ (w : Word) (i : Instr), decode w = .ok i → encode i = w) ∧
  (∀ i : Instr, decode (encode i) = .ok i)

/-- R95: for each of the 34 rows a word is that row's instruction exactly when its masked bits match, and no word
matches two rows. -/
def Obligations.DecoderFollowsOpcodeMap : Prop :=
  opcodeTable.length = 34 ∧
  (∀ (w : Word) (row : OpcodeRow), row ∈ opcodeTable →
    (w &&& row.mask = row.pattern ↔ ∃ i, decode w = .ok i ∧ i.row = row)) ∧
  (∀ (w : Word) (a b : OpcodeRow), a ∈ opcodeTable → b ∈ opcodeTable →
    w &&& a.mask = a.pattern → w &&& b.mask = b.pattern → a = b)

/-- The table of illegal words in R100 (its strictness in families 0, 5 and 9 is decision D10), with R94: decoding is
total, and a failure carries the raw opcode. -/
def Obligations.IllegalWordsAreTheTabledOnes : Prop :=
  ∀ w : Word,
    (decode w = .error (.unrecognized w) ↔
      (fieldN0 w = 0x0 ∧ w ≠ 0x00E0 ∧ w ≠ 0x00EE) ∨
      ((fieldN0 w = 0x5 ∨ fieldN0 w = 0x9) ∧ fieldN w ≠ 0) ∨
      (fieldN0 w = 0x8 ∧ fieldN w ∈ [0x8#4, 0x9#4, 0xA#4, 0xB#4, 0xC#4, 0xD#4, 0xF#4]) ∨
      (fieldN0 w = 0xE ∧ fieldKK w ∉ [0x9E#8, 0xA1#8]) ∨
      (fieldN0 w = 0xF ∧
        fieldKK w ∉ [0x07#8, 0x0A#8, 0x15#8, 0x18#8, 0x1E#8, 0x29#8, 0x33#8, 0x55#8, 0x65#8])) ∧
    (decode w = .error (.unrecognized w) ∨ ∃ i, decode w = .ok i)

/-- R90, R62: an instruction is two bytes, the high one first; the byte decoder reads it off the front of any byte
sequence and leaves the rest. -/
def Obligations.InstructionsAreTwoBytesBigEndian : Prop :=
  ∀ (i : Instr) (rest : List Byte),
    decodeBytes (encodeBytes i ++ rest) = .ok (i, rest) ∧ (encodeBytes i).length = 2 ∧
    ∃ hi lo : Byte, encodeBytes i = [hi, lo] ∧ (encode i).toNat = hi.toNat * 256 + lo.toNat

/-! ## The step (40_step_cycle.md) -/

/-- The phases of R130 when an instruction runs: where the two bytes at `pc`, the first one high (R62), decode to `i`,
a `Step` is `exec i` on the state with `dt` counted down (R131) and `pc` still at the instruction (R135). The halted
gate and the range check are the spec's own (D3, D2). That a `Step` comes from the host's list, and is taken off it, or
comes where the list is empty, is the model's choice (log 5). -/
def Obligations.StepRunsTheDecodedInstruction : Prop :=
  ∀ (s : State) (i : Instr) (w : Word), s.executing → s.pc.toNat + 1 ≤ 4095 →
    w.toNat = (s.mem.get s.pc.toNat).toNat * 256 + (s.mem.get (s.pc.toNat + 1)).toNat → decode w = .ok i →
    s.nextInstr = some i ∧
    step s = exec i { s with dt := if s.dt = 0 then 0 else s.dt - 1, host := s.host.tail }

/-- The model's choice (log 8): an instruction's word placed by `withFetchWord` is what the very next step runs, from
any state with memory in canonical form (log 12). -/
def Obligations.PlacedWordIsRunNext : Prop :=
  ∀ (s : State) (i : Instr), s.mem.wf = true →
    step (s.withFetchWord 16 (encode i).toNat) = exec i (s.withFetchWord 16 (encode i).toNat).tick

/-- R131: in every step of a core that is not halted `dt` loses 1 and stays at 0, whether or not an instruction
executes, and `st` is not ticked; only `SetDelayTimer` and `SetSoundTimer` then overwrite them, and `ReadDelayTimer`
sees the ticked value. A `Step` that the host has listed ticks as one that it has not (log 5). -/
def Obligations.DelayTimerTicksFirstInEveryStep : Prop :=
  ∀ s t : State, s.stepsNext → s.running → step s = .next t →
    ((∀ x, s.nextInstr ≠ some (.setDelayTimer x)) → t.dt.toNat = s.dt.toNat - 1) ∧
    ((∀ x, s.nextInstr ≠ some (.setSoundTimer x)) → t.st = s.st) ∧
    (∀ x, s.nextInstr = some (.setDelayTimer x) → t.dt = s.reg x) ∧
    (∀ x, s.nextInstr = some (.readDelayTimer x) → (t.reg x).toNat = s.dt.toNat - 1)

/-- R132: with a key-wait pending a `Step`, listed by the host or not, is a tick and nothing else, and any number of
them only counts `dt` down; of the host's transactions on the core only `KeyPress` (or a `Reset`) ends the wait; and the
`WaitForKey` that sets it completes, its own `pc + 2` applied, the following steps being the ones blocked. That a `Step`
comes from the host's list, and is taken off it, or comes where the list is empty, is the model's choice (log 5). -/
def Obligations.KeyWaitBlocksUntilKeyPress : Prop :=
  (∀ (s : State) (r : RegIndex), s.stepsNext → s.running → s.kw = some r →
    step s = .next { s with dt := if s.dt = 0 then 0 else s.dt - 1, host := s.host.tail }) ∧
  (∀ (s : State) (r : RegIndex) (n : Nat), (∀ tr ∈ s.host.take n, tr = .step) → s.running → s.kw = some r →
    Host.Core.run Sys2Proof.core n s = .next { s with
      dt := BitVec.ofNat 8 (s.dt.toNat - n), host := s.host.drop n }) ∧
  (∀ (s t : State) (r : RegIndex) (tr : Transaction) (rest : List Transaction), s.running → s.kw = some r →
    s.host = tr :: rest → (∀ k, tr ≠ .keyPress k) → (∀ image, tr ≠ .reset image) → step s = .next t →
    t.kw = some r ∧ t.pc = s.pc ∧ t.fault = none) ∧
  (∀ (s : State) (x : RegIndex) (n : Nat), (∀ tr ∈ s.host.take (n + 1), tr = .step) → s.executing →
    s.nextInstr = some (.waitForKey x) →
    Host.Core.run Sys2Proof.core (n + 1) s = .next { s with
      pc := s.pc + 2, kw := some x, dt := BitVec.ofNat 8 (s.dt.toNat - (n + 1)), host := s.host.drop (n + 1) })

/-- R133 (its range check and record are decisions D2, D28): a fetch beyond memory halts the core with `FetchPC`, no
opcode, the first fetch address beyond 4095, and nothing else changed but the tick. A `Step` that the host has listed is
taken off its list (the host's list is the model's, log 5). -/
def Obligations.FetchBeyondMemoryFaults : Prop :=
  ∀ s : State, s.executing → 0xFFF ≤ s.pc.toNat →
    step s = .next { s with
      dt := if s.dt = 0 then 0 else s.dt - 1
      fault := some (.addressOutOfRange .fetchPC s.pc none (some (if s.pc.toNat = 0xFFF then 0x1000 else s.pc.toNat)))
      host := s.host.tail }

/-- R134, R271: a fetched word that does not decode halts the core with `UnrecognizedInstruction`, the word and `pc`,
and nothing else changed but the tick. A `Step` that the host has listed is taken off its list (the host's list is the
model's, log 5). -/
def Obligations.IllegalWordHaltsWithItsOpcode : Prop :=
  ∀ (s : State) (w : Word), s.executing → s.pc.toNat + 1 ≤ 4095 →
    w.toNat = (s.mem.get s.pc.toNat).toNat * 256 + (s.mem.get (s.pc.toNat + 1)).toNat → (∀ i, decode w ≠ .ok i) →
    step s = .next { s with
      dt := if s.dt = 0 then 0 else s.dt - 1
      fault := some (.unrecognizedInstruction w s.pc)
      host := s.host.tail }

/-- R136, R278 (decision D3): while the latch is set nothing of the core changes, whatever the host does short of a
`Reset`. That its transactions are used up one by one is the model's choice: the host's list is the model's (log 5). -/
def Obligations.HaltedCoreNeverChanges : Prop :=
  ∀ (s : State) (n : Nat), s.fault ≠ none → (∀ image, Transaction.reset image ∉ s.host) →
    Host.Core.run Sys2Proof.core n s = .next { s with host := s.host.drop n }

/-- R138: the next state depends on the random input only when the instruction executed is `LoadRandomMasked`. That the
input is a counter of bytes drawn, and that the counter stays where none is drawn, is the model's choice (log 4). -/
def Obligations.RandomByteMattersOnlyToLoadRandomMasked : Prop :=
  ∀ (s : State) (n : Nat), s.stepsNext → (∀ x kk, s.nextInstr ≠ some (.loadRandomMasked x kk)) →
    step { s with draws := n } = withDraws n (step s)

/-- R140 (decision D29): a `Jump` to its own address changes nothing but the tick of `dt` (and the host's list, which is
the model's, log 5, loses the `Step` if it listed it). -/
def Obligations.JumpToSelfIdles : Prop :=
  ∀ (s : State) (nnn : Imm12), s.executing → s.nextInstr = some (.jump nnn) → s.pc.toNat = nnn.toNat →
    step s = .next { s with dt := if s.dt = 0 then 0 else s.dt - 1, host := s.host.tail }

/-! ## Control transfer (41_control_transfer.md) -/

/-- R151, whole: `pc` becomes the target exactly, and nothing else changes. -/
def Obligations.JumpSetsPcToTarget : Prop :=
  ∀ (nnn : Imm12) (s : State), ∃ t, exec (.jump nnn) s = .next t ∧ t.pc.toNat = nnn.toNat ∧ onlyPcChanges s t

/-- R157 (general knowledge, decision D14): `pc` becomes `nnn + V[0]`, not reduced. -/
def Obligations.JumpPlusRegister0AddsV0 : Prop :=
  ∀ (nnn : Imm12) (s : State), ∃ t,
    exec (.jumpPlusRegister0 nnn) s = .next t ∧ t.pc.toNat = nnn.toNat + (s.reg 0).toNat ∧ onlyPcChanges s t

/-- R152: with room, the address of the `Call` itself is pushed and `pc` becomes the target; with 16 valid entries the
call faults and changes nothing (decision D5). -/
def Obligations.CallPushesItsOwnAddress : Prop :=
  ∀ (nnn : Imm12) (s : State),
    (s.sp.val < 16 → ∃ t, exec (.call nnn) s = .next t ∧ t.pc.toNat = nnn.toNat ∧ t.sp.val = s.sp.val + 1 ∧
      (∀ j : Fin 16, t.stack[j] = if j.val = s.sp.val then s.pc else s.stack[j]) ∧ onlyStackChanges s t) ∧
    (s.sp.val = 16 → exec (.call nnn) s =
      .next { s with fault := some (.addressOutOfRange .stackPush s.pc (some (0x2000 ||| nnn.setWidth 16)) none) })

/-- R150: with a valid entry, the most recent one is popped, its slot kept, and `pc` becomes that address plus 2; with
none the return faults and changes nothing (decision D5). -/
def Obligations.ReturnResumesAfterTheCall : Prop :=
  ∀ s : State,
    (∀ j : Fin 16, s.sp.val = j.val + 1 → ∃ t, exec .ret s = .next t ∧ t.pc = s.stack[j] + 2 ∧ t.sp.val = j.val ∧
      t.stack = s.stack ∧ onlyStackChanges s t) ∧
    (s.sp.val = 0 → exec .ret s =
      .next { s with fault := some (.addressOutOfRange .stackPop s.pc (some 0x00EE) none) })

/-- R150 with R152: a `Return` from a state with the stack a `Call` left resumes 2 after the `Call`, with the stack
pointer as it was before it. -/
def Obligations.ReturnUndoesCall : Prop :=
  ∀ (nnn : Imm12) (s t u : State), s.sp.val < 16 → exec (.call nnn) s = .next t → u.stack = t.stack → u.sp = t.sp →
    ∃ w, exec .ret u = .next w ∧ w.pc = s.pc + 2 ∧ w.sp = s.sp

/-- R153 to R156: each register skip advances by 4 if its predicate holds, else by 2, and changes nothing else. -/
def Obligations.RegisterSkipsAdvanceByPredicate : Prop :=
  (∀ (x : RegIndex) (kk : Byte) (s : State), ∃ t, exec (.skipIfEqualsImmediate x kk) s = .next t ∧
    t.pc = s.pc + (if s.reg x = kk then 4 else 2) ∧ onlyPcChanges s t) ∧
  (∀ (x : RegIndex) (kk : Byte) (s : State), ∃ t, exec (.skipIfNotEqualsImmediate x kk) s = .next t ∧
    t.pc = s.pc + (if s.reg x ≠ kk then 4 else 2) ∧ onlyPcChanges s t) ∧
  (∀ (x y : RegIndex) (s : State), ∃ t, exec (.skipIfRegistersEqual x y) s = .next t ∧
    t.pc = s.pc + (if s.reg x = s.reg y then 4 else 2) ∧ onlyPcChanges s t) ∧
  (∀ (x y : RegIndex) (s : State), ∃ t, exec (.skipIfRegistersNotEqual x y) s = .next t ∧
    t.pc = s.pc + (if s.reg x ≠ s.reg y then 4 else 2) ∧ onlyPcChanges s t)

/-! ## ALU (42_alu.md) -/

/-- R171, R172: the immediate is loaded; the immediate is added modulo 256 with no flag. -/
def Obligations.ImmediateFormsWriteOneRegister : Prop :=
  (∀ (x : RegIndex) (kk : Byte) (s : State), ∃ t, exec (.loadImmediate x kk) s = .next t ∧
    t.reg x = kk ∧ t.pc = s.pc + 2 ∧ onlyRegsChange (· = x) s t) ∧
  (∀ (x : RegIndex) (kk : Byte) (s : State), ∃ t, exec (.addImmediate x kk) s = .next t ∧
    (t.reg x).toNat = ((s.reg x).toNat + kk.toNat) % 256 ∧ t.pc = s.pc + 2 ∧ onlyRegsChange (· = x) s t)

/-- R173 to R176 (that the destination is `V[x]` is general knowledge, R170(d), D12): plain assignment, bit by bit,
with no flag. -/
def Obligations.MoveAndBitwiseFormsWriteOneRegister : Prop :=
  ∀ (x y : RegIndex) (s : State),
    (∃ t, exec (.move x y) s = .next t ∧ t.reg x = s.reg y ∧ t.pc = s.pc + 2 ∧ onlyRegsChange (· = x) s t) ∧
    (∃ t, exec (.or x y) s = .next t ∧
      (∀ k, (t.reg x).getLsbD k = ((s.reg x).getLsbD k || (s.reg y).getLsbD k)) ∧ t.pc = s.pc + 2 ∧
      onlyRegsChange (· = x) s t) ∧
    (∃ t, exec (.and x y) s = .next t ∧
      (∀ k, (t.reg x).getLsbD k = ((s.reg x).getLsbD k && (s.reg y).getLsbD k)) ∧ t.pc = s.pc + 2 ∧
      onlyRegsChange (· = x) s t) ∧
    (∃ t, exec (.xor x y) s = .next t ∧
      (∀ k, (t.reg x).getLsbD k = ((s.reg x).getLsbD k ^^ (s.reg y).getLsbD k)) ∧ t.pc = s.pc + 2 ∧
      onlyRegsChange (· = x) s t)

/-- R177 (destination D12, write order D15): the sum modulo 256 in `V[x]`, and in `VF` whether it exceeds 255, unless
the result lands in `VF`. -/
def Obligations.AddSetsCarry : Prop :=
  ∀ (x y : RegIndex) (s : State), ∃ t, exec (.add x y) s = .next t ∧
    (t.reg x).toNat = ((s.reg x).toNat + (s.reg y).toNat) % 256 ∧
    (x ≠ 0xF → t.reg 0xF = if (s.reg x).toNat + (s.reg y).toNat > 255 then 1 else 0) ∧
    t.pc = s.pc + 2 ∧ onlyRegsChange (fun r => r = x ∨ r = 0xF) s t

/-- R178 and R180 (destination D12, write order D15, ReverseSub general knowledge D13): the difference modulo 256, and
in `VF` whether minuend > subtrahend, strictly, unless the result lands in `VF`. -/
def Obligations.SubtractionsSetStrictNotBorrow : Prop :=
  ∀ (x y : RegIndex) (s : State),
    (∃ t, exec (.sub x y) s = .next t ∧
      (t.reg x).toNat = ((s.reg x).toNat + 256 - (s.reg y).toNat) % 256 ∧
      (x ≠ 0xF → t.reg 0xF = if (s.reg x).toNat > (s.reg y).toNat then 1 else 0) ∧
      t.pc = s.pc + 2 ∧ onlyRegsChange (fun r => r = x ∨ r = 0xF) s t) ∧
    (∃ t, exec (.reverseSub x y) s = .next t ∧
      (t.reg x).toNat = ((s.reg y).toNat + 256 - (s.reg x).toNat) % 256 ∧
      (x ≠ 0xF → t.reg 0xF = if (s.reg y).toNat > (s.reg x).toNat then 1 else 0) ∧
      t.pc = s.pc + 2 ∧ onlyRegsChange (fun r => r = x ∨ r = 0xF) s t)

/-- R179 and R181 (source operand D11, write order D15): `V[x]` shifted by one bit in place, the bit shifted out in
`VF` unless the result lands there; `y` plays no part. -/
def Obligations.ShiftsMoveOneBitOut : Prop :=
  ∀ (x y : RegIndex) (s : State),
    (∃ t, exec (.shiftRight x y) s = .next t ∧
      (t.reg x).toNat = (s.reg x).toNat / 2 ∧
      (x ≠ 0xF → (t.reg 0xF).toNat = (s.reg x).toNat % 2) ∧
      t.pc = s.pc + 2 ∧ onlyRegsChange (fun r => r = x ∨ r = 0xF) s t) ∧
    (∃ t, exec (.shiftLeft x y) s = .next t ∧
      (t.reg x).toNat = (s.reg x).toNat * 2 % 256 ∧
      (x ≠ 0xF → (t.reg 0xF).toNat = (s.reg x).toNat / 128) ∧
      t.pc = s.pc + 2 ∧ onlyRegsChange (fun r => r = x ∨ r = 0xF) s t)

/-- R182 (the input is free, decision D21; the counter that stands for it is the model's, log 4): the drawn byte AND
the mask, whatever the byte, so no bit outside the mask is set; the draw is used up. -/
def Obligations.LoadRandomMaskedStoresMaskedDraw : Prop :=
  ∀ (x : RegIndex) (kk : Byte) (s : State), ∃ t, exec (.loadRandomMasked x kk) s = .next t ∧
    t.reg x = Config.drawRnd s.draws &&& kk ∧ (∀ k, kk.getLsbD k = false → (t.reg x).getLsbD k = false) ∧
    t.pc = s.pc + 2 ∧ t.draws = s.draws + 1 ∧ onlyRegsChange (· = x) s { t with draws := s.draws }

/-! ## Index register and memory (43_index_memory.md) -/

/-- R200, R202: `I` gets the 12-bit immediate, or five times the low nibble of the register; nothing else changes. -/
def Obligations.IndexLoadsSetI : Prop :=
  (∀ (nnn : Imm12) (s : State), ∃ t, exec (.loadIndex nnn) s = .next t ∧
    t.I.toNat = nnn.toNat ∧ t.pc = s.pc + 2 ∧ onlyIndexChanges s t) ∧
  (∀ (x : RegIndex) (s : State), ∃ t, exec (.loadFontGlyphAddress x) s = .next t ∧
    t.I.toNat = (s.reg x).toNat % 16 * 5 ∧ t.pc = s.pc + 2 ∧ onlyIndexChanges s t)

/-- R201 (the 16-bit wrap is decision D24): the register is added to `I` modulo 65536, with no flag. -/
def Obligations.AddToIndexWrapsAt16Bits : Prop :=
  ∀ (x : RegIndex) (s : State), ∃ t, exec (.addToIndex x) s = .next t ∧
    t.I.toNat = (s.I.toNat + (s.reg x).toNat) % 65536 ∧ t.pc = s.pc + 2 ∧ onlyIndexChanges s t

/-- R203 (unchanged `I` is decision D23): the three decimal digits at `I`, `I+1`, `I+2`, every other byte as before. That
memory is, and stays, in canonical form is the model's own (log 12). -/
def Obligations.StoreBCDWritesThreeDigits : Prop :=
  ∀ (x : RegIndex) (s : State), s.mem.wf = true → s.I.toNat + 2 ≤ 4095 → ∃ t,
    exec (.storeBCD x) s = .next t ∧
    (t.mem.get (effectiveAddr s.I 0)).toNat = (s.reg x).toNat / 100 ∧
    (t.mem.get (effectiveAddr s.I 1)).toNat = (s.reg x).toNat / 10 % 10 ∧
    (t.mem.get (effectiveAddr s.I 2)).toNat = (s.reg x).toNat % 10 ∧
    (∀ a, (∀ i < 3, a ≠ effectiveAddr s.I i) → t.mem.get a = s.mem.get a) ∧
    t.mem.wf = true ∧ t.pc = s.pc + 2 ∧ onlyMemChanges s t

/-- R204 (unchanged `I` is decision D23): `V[0..x]` at `I..I+x`, every other byte as before. That memory is, and stays,
in canonical form is the model's own (log 12). -/
def Obligations.StoreRegistersWritesTheRange : Prop :=
  ∀ (x : RegIndex) (s : State), s.mem.wf = true → s.I.toNat + x.toNat ≤ 4095 → ∃ t,
    exec (.storeRegisters x) s = .next t ∧
    (∀ r : RegIndex, r.toNat ≤ x.toNat → t.mem.get (effectiveAddr s.I r.toNat) = s.reg r) ∧
    (∀ a, (∀ i ≤ x.toNat, a ≠ effectiveAddr s.I i) → t.mem.get a = s.mem.get a) ∧
    t.mem.wf = true ∧ t.pc = s.pc + 2 ∧ onlyMemChanges s t

/-- R205 (unchanged `I` is decision D23): `V[0..x]` from `I..I+x`, the registers above `x` as before. -/
def Obligations.LoadRegistersReadsTheRange : Prop :=
  ∀ (x : RegIndex) (s : State), s.I.toNat + x.toNat ≤ 4095 → ∃ t,
    exec (.loadRegisters x) s = .next t ∧
    (∀ r : RegIndex, r.toNat ≤ x.toNat → t.reg r = s.mem.get (effectiveAddr s.I r.toNat)) ∧
    t.pc = s.pc + 2 ∧ onlyRegsChange (fun r => r.toNat ≤ x.toNat) s t

/-- R66, R203, R204, R205, R222 (fail rather than wrap is decision D2): when the highest address exceeds 4095 the
instruction halts the core with that address, a read for the loads and a write for the stores, and not one byte,
register or pixel is written. -/
def Obligations.AccessBeyondMemoryFaultsBeforeWriting : Prop :=
  ∀ s : State,
    (∀ x : RegIndex, s.I.toNat + 2 > 4095 → exec (.storeBCD x) s = .next { s with
      fault := some (.addressOutOfRange .indexWrite s.pc (some (encode (.storeBCD x))) (some (s.I.toNat + 2))) }) ∧
    (∀ x : RegIndex, s.I.toNat + x.toNat > 4095 → exec (.storeRegisters x) s = .next { s with
      fault := some (.addressOutOfRange .indexWrite s.pc (some (encode (.storeRegisters x)))
        (some (s.I.toNat + x.toNat))) }) ∧
    (∀ x : RegIndex, s.I.toNat + x.toNat > 4095 → exec (.loadRegisters x) s = .next { s with
      fault := some (.addressOutOfRange .indexRead s.pc (some (encode (.loadRegisters x)))
        (some (s.I.toNat + x.toNat))) }) ∧
    (∀ (x y : RegIndex) (n : Nibble), n ≠ 0 → s.I.toNat + n.toNat - 1 > 4095 →
      exec (.drawSprite x y n) s = .next { s with
        fault := some (.addressOutOfRange .indexRead s.pc (some (encode (.drawSprite x y n)))
          (some (s.I.toNat + n.toNat - 1))) })

/-- R205: `StoreRegisters(x)` and then `LoadRegisters(x)` with the same `I` restores `V[0..x]` exactly, whatever the
registers hold in between (from a memory in canonical form, the model's own, log 12). -/
def Obligations.LoadAfterStoreRestoresRegisters : Prop :=
  ∀ (x : RegIndex) (s t u : State), s.mem.wf = true → s.I.toNat + x.toNat ≤ 4095 →
    exec (.storeRegisters x) s = .next t → u.mem = t.mem → u.I = s.I →
    ∃ w, exec (.loadRegisters x) u = .next w ∧ ∀ r : RegIndex, r.toNat ≤ x.toNat → w.reg r = s.reg r

/-- R73, for every instruction that runs without a fault: the very next fetch reads, in each of its two bytes, what the
instruction has just stored at that address, be both addresses stored to or one of them, and what memory held before
where it stored nothing. `storedByte` says which instruction stores which byte where (R203, R204). The memory it starts
from is in canonical form, the model's own (log 12). -/
def Obligations.StoredBytesAreFetchedAtOnce : Prop :=
  ∀ (i : Instr) (s t u : State), s.mem.wf = true → exec i s = .next t → t.fault = none → u.mem = t.mem →
    u.pc.toNat + 1 ≤ 4095 →
    ∃ w, u.fetch = .ok w ∧
      w.toNat = ((storedByte s i u.pc.toNat).getD (s.mem.get u.pc.toNat)).toNat * 256 +
        ((storedByte s i (u.pc.toNat + 1)).getD (s.mem.get (u.pc.toNat + 1))).toNat

/-! ## Display (44_display.md) -/

/-- R220, R223: every pixel goes out, `VF` and all the rest stay. -/
def Obligations.ClearDisplayPutsOutEveryPixel : Prop :=
  ∀ s : State, ∃ t, exec .clearDisplay s = .next t ∧ (∀ row col, t.fb.pixel row col = false) ∧ t.pc = s.pc + 2 ∧
    onlyPcChanges s { t with fb := s.fb }

/-- R221: `draw` XORs each sprite bit into its wrapped pixel, leaves every other pixel alone, and returns true exactly
when some pixel went from lit to unlit. -/
def Obligations.DrawXorsTheSpriteAndReportsCollision : Prop :=
  ∀ (fb : Framebuffer) (x y : Byte) (bytes : List Byte), bytes.length ≤ 15 →
    (∀ row col, (fb.draw x y bytes).1.pixel row col = (fb.pixel row col ^^ spriteBit x y bytes row col)) ∧
    ((fb.draw x y bytes).2 = true ↔
      ∃ row col, fb.pixel row col = true ∧ (fb.draw x y bytes).1.pixel row col = false)

/-- R224: (a) the same sprite twice restores the framebuffer, and the second draw collides exactly when the first lit
a pixel; (b) the two wraparound examples; (c) on a cleared framebuffer nothing collides and exactly the sprite's 1
bits are lit (the spec derives (c)). -/
def Obligations.DrawingTwiceRestoresTheFramebuffer : Prop :=
  (∀ (fb : Framebuffer) (x y : Byte) (bytes : List Byte), bytes.length ≤ 15 →
    ((fb.draw x y bytes).1.draw x y bytes).1 = fb ∧
    (((fb.draw x y bytes).1.draw x y bytes).2 = true ↔
      ∃ row col, fb.pixel row col = false ∧ (fb.draw x y bytes).1.pixel row col = true)) ∧
  (∀ col : Fin 64, (Framebuffer.clear.draw 60 0 [0xFF]).1.pixel 0 col = true ↔
    col.val ∈ [60, 61, 62, 63, 0, 1, 2, 3]) ∧
  (∀ row : Fin 32, (Framebuffer.clear.draw 0 31 [0x80, 0x80]).1.pixel row 0 = true ↔ row.val ∈ [31, 0]) ∧
  (∀ (x y : Byte) (bytes : List Byte), bytes.length ≤ 15 →
    (Framebuffer.clear.draw x y bytes).2 = false ∧
    ∀ row col, (Framebuffer.clear.draw x y bytes).1.pixel row col = spriteBit x y bytes row col)

/-- R222 (range failure D2, zero rows D22): where the sprite's bytes lie in memory, or there are none, they are drawn
at the sampled `V[x]`, `V[y]` and `VF` gets the collision as 0 or 1; `I`, memory and all the rest stay. -/
def Obligations.DrawSpriteDrawsAndSetsVF : Prop :=
  ∀ (x y : RegIndex) (n : Nibble) (s : State), (n = 0 ∨ s.I.toNat + n.toNat - 1 ≤ 4095) →
    ∃ (t : State) (bytes : List Byte), exec (.drawSprite x y n) s = .next t ∧
      bytes.length = n.toNat ∧ (∀ r (h : r < bytes.length), bytes[r] = s.mem.get (effectiveAddr s.I r)) ∧
      t.fb = (s.fb.draw (s.reg x) (s.reg y) bytes).1 ∧
      t.reg 0xF = (if (s.fb.draw (s.reg x) (s.reg y) bytes).2 then 1 else 0) ∧ (n = 0 → t.fb = s.fb ∧ t.reg 0xF = 0) ∧
      t.pc = s.pc + 2 ∧ onlyRegsChange (· = 0xF) s { t with fb := s.fb }

/-! ## Keypad and timers (45_keypad_timers.md) -/

/-- R240, R241: the key named by the register's value is tested, up to 15; above 15 the skip faults, unmasked
(decision D16). -/
def Obligations.KeySkipsTestTheNamedKey : Prop :=
  ∀ (x : RegIndex) (s : State),
    (∀ k : KeyIndex, (s.reg x).toNat = k.toNat →
      (∃ t, exec (.skipIfKeyPressed x) s = .next t ∧ t.pc = s.pc + (if s.key k = true then 4 else 2) ∧
        onlyPcChanges s t) ∧
      (∃ t, exec (.skipIfKeyNotPressed x) s = .next t ∧ t.pc = s.pc + (if s.key k = false then 4 else 2) ∧
        onlyPcChanges s t)) ∧
    ((s.reg x).toNat > 15 →
      exec (.skipIfKeyPressed x) s = .next { s with
        fault := some (.addressOutOfRange .keyIndex s.pc (some (encode (.skipIfKeyPressed x)))
          (some (s.reg x).toNat)) } ∧
      exec (.skipIfKeyNotPressed x) s = .next { s with
        fault := some (.addressOutOfRange .keyIndex s.pc (some (encode (.skipIfKeyNotPressed x)))
          (some (s.reg x).toNat)) })

/-- R242: the target register is recorded and `pc` moves on at once; no key is read, no register written. -/
def Obligations.WaitForKeyArmsTheGate : Prop :=
  ∀ (x : RegIndex) (s : State), ∃ t, exec (.waitForKey x) s = .next t ∧ t.kw = some x ∧ t.pc = s.pc + 2 ∧
    onlyPcChanges s { t with kw := s.kw }

/-- R243, R244, R245: a register gets `dt` as it then is; `dt` or `st` gets a register; nothing else changes. -/
def Obligations.TimerInstructionsCopy : Prop :=
  ∀ (x : RegIndex) (s : State),
    (∃ t, exec (.readDelayTimer x) s = .next t ∧ t.reg x = s.dt ∧ t.pc = s.pc + 2 ∧ onlyRegsChange (· = x) s t) ∧
    (∃ t, exec (.setDelayTimer x) s = .next t ∧ t.dt = s.reg x ∧ t.pc = s.pc + 2 ∧
      onlyPcChanges s { t with dt := s.dt }) ∧
    (∃ t, exec (.setSoundTimer x) s = .next t ∧ t.st = s.reg x ∧ t.pc = s.pc + 2 ∧
      onlyPcChanges s { t with st := s.st })

/-- R246 (held keys count too, decision D30): a press marks its key, hands it to a pending wait and ends it, and
touches neither `pc` nor the timers. The host's list is the model's (log 5). -/
def Obligations.KeyPressResolvesThePendingWait : Prop :=
  ∀ (s : State) (k : KeyIndex) (rest : List Transaction), s.running → s.host = .keyPress k :: rest → ∃ t,
    step s = .next t ∧ t.key k = true ∧ (∀ k', k' ≠ k → t.key k' = s.key k') ∧ t.kw = none ∧ t.host = rest ∧
    (∀ r, s.kw = some r → (t.reg r).toNat = k.toNat) ∧
    onlyRegsChange (fun r => s.kw = some r) s { t with keys := s.keys, kw := s.kw, host := s.host } ∧ t.pc = s.pc

/-- R247: a release unmarks its key, and has no effect on the key-wait or anything else. -/
def Obligations.KeyReleaseOnlyUnmarksItsKey : Prop :=
  ∀ (s : State) (k : KeyIndex) (rest : List Transaction), s.running → s.host = .keyRelease k :: rest → ∃ t,
    step s = .next t ∧ t.key k = false ∧ (∀ k', k' ≠ k → t.key k' = s.key k') ∧ t.host = rest ∧ t.pc = s.pc ∧
    onlyPcChanges s { t with keys := s.keys, host := s.host }

/-! ## Reset and the host (70_reset_and_hazards.md) -/

/-- R300, R301, R302, R41 (values other than `mem` and `pc` are decision D4, the refusal's lack of a state D27): an
image of at most 3584 bytes gives the tabled state, a longer one is refused by name. That memory is in canonical form
is the model's own (log 12). -/
def Obligations.ResetPlacesTheImageOrRefuses : Prop :=
  ∀ image : List Byte,
    (image.length ≤ 3584 → ∃ t, State.resetWith image = .ok t ∧ t.mem.wf = true ∧
      (∀ a < 80, t.mem.get a = Config.fontTable.getD a 0) ∧
      (∀ a, 80 ≤ a → a < 0x200 → t.mem.get a = 0) ∧
      (∀ j (h : j < image.length), t.mem.get (0x200 + j) = image[j]) ∧
      (∀ a, 0x200 + image.length ≤ a → a ≤ 4095 → t.mem.get a = 0) ∧
      t.pc = 0x200 ∧ (∀ r, t.reg r = 0) ∧ t.I = 0 ∧ t.sp = 0 ∧ (∀ j : Fin 16, t.stack[j] = 0) ∧ t.dt = 0 ∧ t.st = 0 ∧
      t.kw = none ∧ (∀ k, t.key k = false) ∧ (∀ row col, t.fb.pixel row col = false) ∧ t.fault = none) ∧
    (image.length > 3584 → State.resetWith image = .error (.capacityViolation image.length))

/-- R306: a `Reset` transaction in any state, halted or not, gives the state of its image and nothing of the old one;
what goes on are the host's own list and the count of drawn bytes, which are the model's (log 5). -/
def Obligations.ResetLeavesNothingOfTheOldState : Prop :=
  ∀ (s : State) (image : List Byte) (rest : List Transaction), s.host = .reset image :: rest →
    (image.length ≤ 3584 → ∃ t, State.resetWith image = .ok t ∧
      step s = .next { t with draws := s.draws, host := rest }) ∧
    (image.length > 3584 → step s = .refused (.capacityViolation image.length))

/-- R315 (decision D25): `Cycle(steps)` issues `steps - 1` Steps, none for 0 or 1. That a run from an empty host list is a
run of Steps is the model's choice (log 5). -/
def Obligations.CycleIssuesOneStepLess : Prop :=
  ∀ (s : State) (steps : Nat), s.hostSteps → s.cycle steps = Host.Core.run Sys2Proof.core (steps - 1) s

/-! ## Whole-machine rules -/

/-- R10: every transaction has an outcome: a next state always, but for a `Reset` with too long an image, which is
refused; no step ends in a fault outcome (the latch holds it, log 1). The host's list is the model's (log 5). -/
def Obligations.EveryTransactionHasItsOutcome : Prop :=
  ∀ s : State, (∃ t, step s = .next t) ∨
    ∃ image rest, s.host = .reset image :: rest ∧ image.length > 3584 ∧
      step s = .refused (.capacityViolation image.length)

/-- R277, R279 (decisions D2, D3, D26): a step that raises a fault leaves the state before it with `dt` ticked and the
latch set, nothing else, and the record names the `pc` it stopped at; none arises during a key-wait (R280). A `Step`
that the host has listed is taken off its list (the host's list is the model's, log 5). -/
def Obligations.FaultsArePrecise : Prop :=
  ∀ (s t : State) (f : Fault), s.stepsNext → s.running → step s = .next t → t.fault = some f →
    t = { s with dt := if s.dt = 0 then 0 else s.dt - 1, fault := some f, host := s.host.tail } ∧ f.pc = s.pc ∧
      s.kw = none

/-- R276: an instruction raises only the sub-cause listed for it, with its own word, and the other 26 raise nothing. -/
def Obligations.InstructionsRaiseOnlyTheirOwnFault : Prop :=
  ∀ (i : Instr) (s t : State) (f : Fault), s.running → exec i s = .next t → t.fault = some f →
    ∃ sub addr, faultSub i = some sub ∧ f = .addressOutOfRange sub s.pc (some (encode i)) addr

/-- R27: after reset only `StoreBCD` and `StoreRegisters` change memory, and the host cannot but by `Reset` (the
host's list is the model's, log 5). -/
def Obligations.OnlyTwoInstructionsWriteMemory : Prop :=
  ∀ s t : State, step s = .next t → t.mem ≠ s.mem →
    s.resetsNext ∨ (s.stepsNext ∧ ∃ x, s.nextInstr = some (.storeBCD x) ∨ s.nextInstr = some (.storeRegisters x))

/-- R36: the framebuffer is changed only by `ClearDisplay` and `DrawSprite` (and made anew by `Reset`); the
host's list is the model's (log 5). -/
def Obligations.OnlyTwoInstructionsWriteTheFramebuffer : Prop :=
  ∀ s t : State, step s = .next t → t.fb ≠ s.fb →
    s.resetsNext ∨ (s.stepsNext ∧ (s.nextInstr = some .clearDisplay ∨ ∃ x y n, s.nextInstr = some (.drawSprite x y n)))

/-- The write column of R23: an instruction changes no register but those listed for it. -/
def Obligations.InstructionsWriteOnlyTheirRegisters : Prop :=
  ∀ (i : Instr) (s t : State), exec i s = .next t → sameRegsBut (regWrites i) s t

/-- The write column of R39, with R34 and R35: `I`, the stack, the timers and the key-wait marker are changed only by
their own instructions, and the keypad by none. -/
def Obligations.ControlRegistersHaveTheirOwnWriters : Prop :=
  ∀ (i : Instr) (s t : State), exec i s = .next t →
    (t.I ≠ s.I → (∃ nnn, i = .loadIndex nnn) ∨ ∃ x, i = .addToIndex x ∨ i = .loadFontGlyphAddress x) ∧
    (t.stack ≠ s.stack → ∃ nnn, i = .call nnn) ∧
    (t.sp ≠ s.sp → i = .ret ∨ ∃ nnn, i = .call nnn) ∧
    (t.dt ≠ s.dt → ∃ x, i = .setDelayTimer x) ∧
    (t.st ≠ s.st → ∃ x, i = .setSoundTimer x) ∧
    (t.kw ≠ s.kw → ∃ x, i = .waitForKey x) ∧
    t.keys = s.keys

/-- The table of R26 for an instruction fetched inside memory, with R279 for one that faults: the next `pc` as an exact
number, no wrap (the spec derives it), wherever the stack holds addresses of fetched calls (R42(c)). The invariant it
assumes has memory in canonical form, the model's own (log 12). -/
def Obligations.PcAdvancesAsTabled : Prop :=
  ∀ (i : Instr) (s t : State), s.Inv → s.running → s.pc.toNat ≤ 0xFFE → exec i s = .next t →
    (t.fault = none → t.pc.toNat = nextPc s i) ∧ (t.fault ≠ none → t.pc = s.pc)

/-- The invariant of R42 holds after a reset with any image that fits, the empty one included (values other than `mem`
and `pc` are decision D4; the canonical form of memory in it is the model's, log 12). -/
def Obligations.ResetMeetsTheInvariant : Prop :=
  State.reset.Inv ∧ ∀ (image : List Byte) (t : State), State.resetWith image = .ok t → t.Inv

/-- R42, with R277 and R280: from EVERY state that meets the invariant, reached or not, every step (any transaction of
the host: a `Step`, a key operation, a `Reset`) gives a state that meets it. The canonical form of memory in it is the
model's (log 12), as is the host's list (log 5). -/
def Obligations.EveryStepKeepsTheInvariant : Prop :=
  ∀ s t : State, s.Inv → step s = .next t → t.Inv

/-- R42 in the spec's own terms: whatever transactions the host issues, in every state reached from reset `sp` is at
most 16, `pc` at most 0x10FE, every valid stack entry at most 0xFFE, and a halted core has no key-wait (R280). The first
clause, that memory is in canonical form, is the model's own (log 12), as is the host's list (log 5). -/
def Obligations.ReachableStatesStayInBounds : Prop :=
  ∀ s : State, Reachable s →
    s.mem.wf = true ∧ s.sp.val ≤ 16 ∧ s.pc.toNat ≤ 0x10FE ∧
    (∀ j : Fin 16, j.val < s.sp.val → s.stack[j].toNat ≤ 0xFFE) ∧ (s.fault ≠ none → s.kw = none)

/-- R20, R138: a transaction's answer is a function of the twelve items of the core and of its inputs: two states with
the same core, whose next transaction and next random byte are the same, come to the same core, whatever else the host
has listed. That the inputs stand beside the core as `draws` and `host` is the model's choice (log 4, 5). -/
def Obligations.NothingButTheCoreAndItsInputsMatters : Prop :=
  ∀ s u t : State, s.toCoreState = u.toCoreState → s.draws = u.draws → s.host.head? = u.host.head? →
    step s = .next t → ∃ t', step u = .next t' ∧ t'.toCoreState = t.toCoreState ∧ t'.draws = t.draws

/-- R225, R277, R283: the transactions `ReadFramebuffer` and `ReadFault` leave the core as it was, whatever its state, a
running core with no key-wait included: no tick, no instruction. That each is taken off the host's list is the model's
choice (log 5), as is that what they return is no part of the answer (log 24). -/
def Obligations.ReadsLeaveTheCoreAsItWas : Prop :=
  ∀ (s : State) (rest : List Transaction),
    (s.host = .readFramebuffer :: rest → step s = .next { s with host := rest }) ∧
    (s.host = .readFault :: rest → step s = .next { s with host := rest })
end

