-- ==== Sys2Proof/Laws/Decode.lean ====
section
/-! SUPPORT. The fields of a word, of a literal and of operand bits at their positions (R91, R99). -/

namespace Sys2Proof

/-- Concatenation as a number: the left part above the right one. -/
theorem append_toNat {m n : Nat} (a : BitVec m) (b : BitVec n) : (a ++ b).toNat = a.toNat * 2 ^ n + b.toNat := by
  rw [BitVec.toNat_append, ← Nat.shiftLeft_add_eq_or_of_lt b.isLt, Nat.shiftLeft_eq]

/-- A slice of a word is known from the word's number. -/
theorem slice_eq {n : Nat} (w : Word) (k : Nat) (v : BitVec n) (h : w.toNat / 2 ^ k % 2 ^ n = v.toNat) :
    w.extractLsb' k n = v := by
  apply BitVec.eq_of_toNat_eq
  rw [BitVec.extractLsb'_toNat, Nat.shiftRight_eq_div_pow, h]

/-! ## A word is its fields side by side, in each format of R92 -/

theorem word_eq_fieldsA (w : Word) : w = fieldN0 w ++ fieldNNN w := by
  apply BitVec.eq_of_toNat_eq
  have := w.isLt
  rw [append_toNat]
  simp only [fieldN0, fieldNNN, BitVec.extractLsb'_toNat, Nat.shiftRight_eq_div_pow]
  omega

theorem word_eq_fieldsXK (w : Word) : w = fieldN0 w ++ fieldX w ++ fieldKK w := by
  apply BitVec.eq_of_toNat_eq
  have := w.isLt
  rw [append_toNat, append_toNat]
  simp only [fieldN0, fieldX, fieldKK, BitVec.extractLsb'_toNat, Nat.shiftRight_eq_div_pow]
  omega

theorem word_eq_fieldsXYN (w : Word) : w = fieldN0 w ++ fieldX w ++ fieldY w ++ fieldN w := by
  apply BitVec.eq_of_toNat_eq
  have := w.isLt
  rw [append_toNat, append_toNat, append_toNat]
  simp only [fieldN0, fieldX, fieldY, fieldN, BitVec.extractLsb'_toNat, Nat.shiftRight_eq_div_pow]
  omega

/-! ## A field of an OR is the OR of the fields -/

theorem fieldN0_or (a b : Word) : fieldN0 (a ||| b) = fieldN0 a ||| fieldN0 b := BitVec.extractLsb'_or
theorem fieldX_or (a b : Word) : fieldX (a ||| b) = fieldX a ||| fieldX b := BitVec.extractLsb'_or
theorem fieldY_or (a b : Word) : fieldY (a ||| b) = fieldY a ||| fieldY b := BitVec.extractLsb'_or
theorem fieldN_or (a b : Word) : fieldN (a ||| b) = fieldN a ||| fieldN b := BitVec.extractLsb'_or
theorem fieldKK_or (a b : Word) : fieldKK (a ||| b) = fieldKK a ||| fieldKK b := BitVec.extractLsb'_or
theorem fieldNNN_or (a b : Word) : fieldNNN (a ||| b) = fieldNNN a ||| fieldNNN b := BitVec.extractLsb'_or

/-! ## A field of an AND is the AND of the fields -/

theorem fieldN0_and (a b : Word) : fieldN0 (a &&& b) = fieldN0 a &&& fieldN0 b := BitVec.extractLsb'_and
theorem fieldX_and (a b : Word) : fieldX (a &&& b) = fieldX a &&& fieldX b := BitVec.extractLsb'_and
theorem fieldY_and (a b : Word) : fieldY (a &&& b) = fieldY a &&& fieldY b := BitVec.extractLsb'_and
theorem fieldN_and (a b : Word) : fieldN (a &&& b) = fieldN a &&& fieldN b := BitVec.extractLsb'_and

/-- Words with the same four nibbles are equal (R91). -/
theorem word_ext {a b : Word} (h0 : fieldN0 a = fieldN0 b) (hx : fieldX a = fieldX b) (hy : fieldY a = fieldY b)
    (hn : fieldN a = fieldN b) : a = b := by
  rw [word_eq_fieldsXYN a, word_eq_fieldsXYN b, h0, hx, hy, hn]

/-! ## The fields of a literal -/

@[simp] theorem fieldN0_ofNat (k : Nat) : fieldN0 (BitVec.ofNat 16 k) = BitVec.ofNat 4 (k / 4096) := by
  apply slice_eq; simp; omega
@[simp] theorem fieldX_ofNat (k : Nat) : fieldX (BitVec.ofNat 16 k) = BitVec.ofNat 4 (k / 256) := by
  apply slice_eq; simp; omega
@[simp] theorem fieldY_ofNat (k : Nat) : fieldY (BitVec.ofNat 16 k) = BitVec.ofNat 4 (k / 16) := by
  apply slice_eq; simp; omega
@[simp] theorem fieldN_ofNat (k : Nat) : fieldN (BitVec.ofNat 16 k) = BitVec.ofNat 4 k := by
  apply slice_eq; simp
@[simp] theorem fieldKK_ofNat (k : Nat) : fieldKK (BitVec.ofNat 16 k) = BitVec.ofNat 8 k := by
  apply slice_eq; simp
@[simp] theorem fieldNNN_ofNat (k : Nat) : fieldNNN (BitVec.ofNat 16 k) = BitVec.ofNat 12 k := by
  apply slice_eq; simp

/-! ## The fields of operand bits -/

@[simp] theorem fieldN0_placeA (nnn : Imm12) : fieldN0 (placeA nnn) = 0 := by
  apply slice_eq
  rw [placeA, append_toNat]
  have h0 := nnn.isLt
  simp
  try omega
@[simp] theorem fieldNNN_placeA (nnn : Imm12) : fieldNNN (placeA nnn) = nnn := by
  apply slice_eq
  rw [placeA, append_toNat]
  have h0 := nnn.isLt
  simp
  try omega
@[simp] theorem fieldN0_placeXK (x : RegIndex) (kk : Byte) : fieldN0 (placeXK x kk) = 0 := by
  apply slice_eq
  rw [placeXK, append_toNat, append_toNat]
  have h0 := x.isLt
  have h1 := kk.isLt
  simp
  try omega
@[simp] theorem fieldX_placeXK (x : RegIndex) (kk : Byte) : fieldX (placeXK x kk) = x := by
  apply slice_eq
  rw [placeXK, append_toNat, append_toNat]
  have h0 := x.isLt
  have h1 := kk.isLt
  simp
  try omega
@[simp] theorem fieldKK_placeXK (x : RegIndex) (kk : Byte) : fieldKK (placeXK x kk) = kk := by
  apply slice_eq
  rw [placeXK, append_toNat, append_toNat]
  have h0 := x.isLt
  have h1 := kk.isLt
  simp
  try omega
@[simp] theorem fieldN0_placeXYN (x y : RegIndex) (n : Nibble) : fieldN0 (placeXYN x y n) = 0 := by
  apply slice_eq
  rw [placeXYN, append_toNat, append_toNat, append_toNat]
  have h0 := x.isLt
  have h1 := y.isLt
  have h2 := n.isLt
  simp
  try omega
@[simp] theorem fieldX_placeXYN (x y : RegIndex) (n : Nibble) : fieldX (placeXYN x y n) = x := by
  apply slice_eq
  rw [placeXYN, append_toNat, append_toNat, append_toNat]
  have h0 := x.isLt
  have h1 := y.isLt
  have h2 := n.isLt
  simp
  try omega
@[simp] theorem fieldY_placeXYN (x y : RegIndex) (n : Nibble) : fieldY (placeXYN x y n) = y := by
  apply slice_eq
  rw [placeXYN, append_toNat, append_toNat, append_toNat]
  have h0 := x.isLt
  have h1 := y.isLt
  have h2 := n.isLt
  simp
  try omega
@[simp] theorem fieldN_placeXYN (x y : RegIndex) (n : Nibble) : fieldN (placeXYN x y n) = n := by
  apply slice_eq
  rw [placeXYN, append_toNat, append_toNat, append_toNat]
  have h0 := x.isLt
  have h1 := y.isLt
  have h2 := n.isLt
  simp
  try omega
@[simp] theorem fieldN0_placeX (x : RegIndex) : fieldN0 (placeX x) = 0 := by
  apply slice_eq
  rw [placeX, append_toNat, append_toNat]
  have h0 := x.isLt
  simp
  try omega
@[simp] theorem fieldX_placeX (x : RegIndex) : fieldX (placeX x) = x := by
  apply slice_eq
  rw [placeX, append_toNat, append_toNat]
  have h0 := x.isLt
  simp
  try omega
@[simp] theorem fieldKK_placeX (x : RegIndex) : fieldKK (placeX x) = 0 := by
  apply slice_eq
  rw [placeX, append_toNat, append_toNat]
  have h0 := x.isLt
  simp
  try omega
@[simp] theorem fieldY_placeX (x : RegIndex) : fieldY (placeX x) = 0 := by
  apply slice_eq
  rw [placeX, append_toNat, append_toNat]
  have h0 := x.isLt
  simp
  try omega
@[simp] theorem fieldN_placeX (x : RegIndex) : fieldN (placeX x) = 0 := by
  apply slice_eq
  rw [placeX, append_toNat, append_toNat]
  have h0 := x.isLt
  simp
  try omega

end Sys2Proof
end

