-- ==== Sys2Proof/Laws/Framebuffer.lean ====
section
/-! SUPPORT. The laws of single pixels (R221, R226). -/

namespace Sys2Proof.Machine

@[simp] theorem Framebuffer.pixel_clear (row : Fin 32) (col : Fin 64) :
    Framebuffer.pixel Framebuffer.clear row col = false := by
  simp [Framebuffer.pixel, Framebuffer.clear]

theorem Framebuffer.pixel_setPixel (fb : Framebuffer) (row row' : Fin 32) (col col' : Fin 64) (p : Bool) :
    (fb.setPixel row col p).pixel row' col' = if row' = row ∧ col' = col then p else fb.pixel row' col' := by
  by_cases hr : row' = row
  · subst hr
    by_cases hc : col' = col
    · subst hc; simp [Framebuffer.pixel, Framebuffer.setPixel]
    · have : ¬ (col : Nat) = col' := fun e => hc (Fin.ext e.symm)
      simp [Framebuffer.pixel, Framebuffer.setPixel, hc, this]
  · have : ¬ (row : Nat) = row' := fun e => hr (Fin.ext e.symm)
    simp [Framebuffer.pixel, Framebuffer.setPixel, hr, this]

/-- Framebuffers with the same pixels are equal (R226: "no state besides the 2048 pixels"). -/
theorem Framebuffer.ext_pixel {a b : Framebuffer} (h : ∀ row col, a.pixel row col = b.pixel row col) : a = b :=
  Vector.ext fun i hi => Vector.ext fun j hj => h ⟨i, hi⟩ ⟨j, hj⟩

/-- A plotted pixel is XORed with the bit; every other pixel stays. -/
theorem Drawing.pixel_plot (d : Drawing) (row row' : Fin 32) (col col' : Fin 64) (bit : Bool) :
    (d.plot row col bit).1.pixel row' col' =
      if row' = row ∧ col' = col then d.1.pixel row col ^^ bit else d.1.pixel row' col' :=
  Framebuffer.pixel_setPixel _ _ _ _ _ _

/-- A plot reports a collision when one was reported before or a lit pixel meets a 1 bit. -/
theorem Drawing.hit_plot (d : Drawing) (row : Fin 32) (col : Fin 64) (bit : Bool) :
    (d.plot row col bit).2 = (d.2 || (d.1.pixel row col && bit)) := by
  simp only [Drawing.plot]
  cases d.1.pixel row col <;> cases bit <;> rfl

end Sys2Proof.Machine
end

