-- ==== Sys2Proof/Laws/Memory.lean ====
section
/-! SUPPORT. The laws of memory: every operation keeps the canonical form, a read after a write, and images. -/

namespace Sys2Proof.Machine

/-! ## The canonical form -/

theorem Memory.wfFrom_cons_iff {lo k : Nat} {b : Byte} {m : Memory} :
    Memory.wfFrom lo ((k, b) :: m) = true ↔
      lo ≤ k ∧ k < Config.memSize ∧ b ≠ Memory.resetByte k ∧ Memory.wfFrom (k + 1) m = true := by
  simp [Memory.wfFrom, and_assoc]

/-- A list canonical from `lo` on is canonical from any lower address on. -/
theorem Memory.wfFrom_mono {lo lo' : Nat} {m : Memory} (h : Memory.wfFrom lo m = true) (hle : lo' ≤ lo) :
    Memory.wfFrom lo' m = true := by
  cases m with
  | nil => rfl
  | cons c rest =>
    obtain ⟨k, b⟩ := c
    rw [Memory.wfFrom_cons_iff] at h ⊢
    exact ⟨by omega, h.2⟩

theorem Memory.cons_wf {lo a : Nat} {b : Byte} {m : Memory} (hlo : lo ≤ a) (ha : a < Config.memSize)
    (h : Memory.wfFrom (a + 1) m = true) : Memory.wfFrom lo (Memory.cons a b m) = true := by
  unfold Memory.cons
  split
  · exact Memory.wfFrom_mono h (by omega)
  · next hb => exact Memory.wfFrom_cons_iff.2 ⟨hlo, ha, hb, h⟩

theorem Memory.set_wfFrom {m : Memory} {lo a : Nat} {b : Byte} (hlo : lo ≤ a) (ha : a < Config.memSize)
    (h : Memory.wfFrom lo m = true) : Memory.wfFrom lo (m.set a b) = true := by
  induction m generalizing lo with
  | nil => exact Memory.cons_wf hlo ha rfl
  | cons c rest ih =>
    obtain ⟨k, c⟩ := c
    have hk := Memory.wfFrom_cons_iff.1 h
    unfold Memory.set
    split
    · next hak => exact Memory.cons_wf hlo ha (Memory.wfFrom_cons_iff.2 ⟨by omega, hk.2⟩)
    · split
      · next _ hak => subst hak; exact Memory.cons_wf hlo ha hk.2.2.2
      · next h1 h2 => exact Memory.wfFrom_cons_iff.2 ⟨hk.1, hk.2.1, hk.2.2.1, ih (by omega) hk.2.2.2⟩

/-- A write inside memory keeps the canonical form. -/
theorem Memory.set_wf {m : Memory} {a : Nat} {b : Byte} (ha : a < Config.memSize) (h : m.wf = true) :
    (m.set a b).wf = true := Memory.set_wfFrom (Nat.zero_le a) ha h

/-- Consecutive writes inside memory keep the canonical form. -/
theorem Memory.setBytes_wf {bs : List Byte} {m : Memory} {a : Nat} (ha : a + bs.length ≤ Config.memSize)
    (h : m.wf = true) : (m.setBytes a bs).wf = true := by
  induction bs generalizing m a with
  | nil => exact h
  | cons b bs ih =>
    simp only [List.length_cons] at ha
    exact ih (by omega) (Memory.set_wf (by omega) h)

/-! ## Reading -/

theorem Memory.get_listed (k : Nat) (b : Byte) (rest : Memory) (a : Nat) :
    Memory.get ((k, b) :: rest) a = if a = k then b else if a < k then Memory.resetByte a else Memory.get rest a := rfl

/-- Below the first listed address memory reads as at reset. -/
theorem Memory.get_of_lt {m : Memory} {lo a : Nat} (h : Memory.wfFrom lo m = true) (ha : a < lo) :
    m.get a = Memory.resetByte a := by
  cases m with
  | nil => rfl
  | cons c rest =>
    obtain ⟨k, c⟩ := c
    have hk := (Memory.wfFrom_cons_iff.1 h).1
    simp [Memory.get, show a ≠ k by omega, show a < k by omega]

theorem Memory.get_cons_self {lo a : Nat} {b : Byte} {m : Memory} (h : Memory.wfFrom lo m = true) (ha : a < lo) :
    (Memory.cons a b m).get a = b := by
  unfold Memory.cons
  split
  · next hb => rw [hb]; exact Memory.get_of_lt h ha
  · simp [Memory.get]

theorem Memory.get_cons_of_ne {lo a a' : Nat} {b : Byte} {m : Memory} (h : Memory.wfFrom lo m = true) (ha : a < lo)
    (hne : a' ≠ a) : (Memory.cons a b m).get a' = m.get a' := by
  unfold Memory.cons
  split
  · rfl
  · rw [Memory.get_listed, if_neg hne]
    split
    · next hlt => exact (Memory.get_of_lt h (by omega)).symm
    · rfl

theorem Memory.get_set {m : Memory} {lo a a' : Nat} {b : Byte} (h : Memory.wfFrom lo m = true) :
    (m.set a b).get a' = if a' = a then b else m.get a' := by
  induction m generalizing lo with
  | nil =>
    split
    · next e => subst e; exact Memory.get_cons_self (lo := a' + 1) rfl (by omega)
    · next e => exact Memory.get_cons_of_ne (lo := a + 1) rfl (by omega) e
  | cons c rest ih =>
    obtain ⟨k, c⟩ := c
    have hk := Memory.wfFrom_cons_iff.1 h
    unfold Memory.set
    split
    · next hak =>
      have hw : Memory.wfFrom (a + 1) ((k, c) :: rest) = true := Memory.wfFrom_cons_iff.2 ⟨by omega, hk.2⟩
      split
      · next e => subst e; exact Memory.get_cons_self hw (by omega)
      · next e => exact Memory.get_cons_of_ne hw (by omega) e
    · split
      · next _ hak =>
        subst hak
        split
        · next e => subst e; exact Memory.get_cons_self hk.2.2.2 (by omega)
        · next e =>
          rw [Memory.get_cons_of_ne hk.2.2.2 (by omega) e]
          rw [Memory.get_listed, if_neg e]
          split
          · next hlt => exact Memory.get_of_lt hk.2.2.2 (by omega)
          · rfl
      · next h1 h2 =>
        rw [Memory.get_listed, Memory.get_listed, ih hk.2.2.2]
        by_cases e : a' = a
        · subst e; simp [h1, h2]
        · simp [e]

/-- A read after a write to the same address gives the byte written (R65). -/
theorem Memory.get_set_self {m : Memory} {a : Nat} {b : Byte} (h : m.wf = true) : (m.set a b).get a = b := by
  rw [Memory.get_set h]; simp

/-- A write leaves every other address alone (R65). -/
theorem Memory.get_set_of_ne {m : Memory} {a a' : Nat} {b : Byte} (h : m.wf = true) (hne : a' ≠ a) :
    (m.set a b).get a' = m.get a' := by
  rw [Memory.get_set h]; simp [hne]

/-- Reading after consecutive writes: the byte written inside the range, the old byte outside. -/
theorem Memory.get_setBytes {bs : List Byte} {m : Memory} {a a' : Nat} (ha : a + bs.length ≤ Config.memSize)
    (h : m.wf = true) :
    (m.setBytes a bs).get a' = if h : a ≤ a' ∧ a' - a < bs.length then bs[a' - a]'h.2 else m.get a' := by
  induction bs generalizing m a with
  | nil => simp [Memory.setBytes]
  | cons b bs ih =>
    simp only [List.length_cons] at ha
    have hw := Memory.set_wf (b := b) (show a < Config.memSize by omega) h
    rw [Memory.setBytes, ih (by omega) hw, Memory.get_set h]
    by_cases e : a' = a
    · subst e; simp
    · by_cases hr : a + 1 ≤ a' ∧ a' - (a + 1) < bs.length
      · have hr' : a ≤ a' ∧ a' - a < (b :: bs).length := by simp only [List.length_cons]; omega
        rw [dif_pos hr, dif_pos hr']
        have : a' - a = (a' - (a + 1)) + 1 := by omega
        simp [this]
      · have hr' : ¬ (a ≤ a' ∧ a' - a < (b :: bs).length) := by simp only [List.length_cons]; omega
        rw [dif_neg hr, dif_neg hr', if_neg e]

@[simp] theorem Memory.getBytes_length (m : Memory) (a n : Nat) : (m.getBytes a n).length = n := by
  induction n generalizing a with
  | zero => rfl
  | succ n ih => simp [Memory.getBytes, ih]

theorem Memory.getElem_getBytes (m : Memory) (a n i : Nat) (h : i < (m.getBytes a n).length) :
    (m.getBytes a n)[i] = m.get (a + i) := by
  induction n generalizing a i with
  | zero => simp at h
  | succ n ih =>
    cases i with
    | zero => rfl
    | succ i =>
      have := ih (a + 1) i (by simpa using h)
      simp only [Memory.getBytes, List.getElem_cons_succ, this]
      congr 1
      omega

/-! ## Images (R301) -/

theorem Memory.ofImage_wfFrom {bs : List Byte} {a : Nat} (h : a + bs.length ≤ Config.memSize) :
    Memory.wfFrom a (Memory.ofImage a bs) = true := by
  induction bs generalizing a with
  | nil => rfl
  | cons b bs ih =>
    simp only [List.length_cons] at h
    exact Memory.cons_wf (le_refl a) (by omega) (ih (by omega))

theorem Memory.ofImage_wf {bs : List Byte} {a : Nat} (h : a + bs.length ≤ Config.memSize) :
    (Memory.ofImage a bs).wf = true := Memory.wfFrom_mono (Memory.ofImage_wfFrom h) (Nat.zero_le a)

theorem Memory.get_ofImage {bs : List Byte} {a a' : Nat} (h : a + bs.length ≤ Config.memSize) :
    (Memory.ofImage a bs).get a' =
      if h : a ≤ a' ∧ a' - a < bs.length then bs[a' - a]'h.2 else Memory.resetByte a' := by
  induction bs generalizing a with
  | nil => simp [Memory.ofImage, Memory.get]
  | cons b bs ih =>
    simp only [List.length_cons] at h
    have hw := Memory.ofImage_wfFrom (a := a + 1) (bs := bs) (by omega)
    rw [Memory.ofImage]
    by_cases e : a' = a
    · subst e; rw [Memory.get_cons_self hw (by omega)]; simp
    · rw [Memory.get_cons_of_ne hw (by omega) e, ih (by omega)]
      by_cases hr : a + 1 ≤ a' ∧ a' - (a + 1) < bs.length
      · have hr' : a ≤ a' ∧ a' - a < (b :: bs).length := by simp only [List.length_cons]; omega
        rw [dif_pos hr, dif_pos hr']
        have : a' - a = (a' - (a + 1)) + 1 := by omega
        simp [this]
      · have hr' : ¬ (a ≤ a' ∧ a' - a < (b :: bs).length) := by simp only [List.length_cons]; omega
        rw [dif_neg hr, dif_neg hr']

end Sys2Proof.Machine
end

