-- ==== Sys2Proof/Laws/State.lean ====
section
/-! SUPPORT. One lemma per field per update of State, and the register laws. -/

namespace Sys2Proof.Machine

/-! ## `setReg` changes `V` alone -/

@[simp] theorem State.setReg_I (s : State) (r : RegIndex) (b : Byte) : (s.setReg r b).I = s.I := rfl
@[simp] theorem State.setReg_pc (s : State) (r : RegIndex) (b : Byte) : (s.setReg r b).pc = s.pc := rfl
@[simp] theorem State.setReg_mem (s : State) (r : RegIndex) (b : Byte) : (s.setReg r b).mem = s.mem := rfl
@[simp] theorem State.setReg_stack (s : State) (r : RegIndex) (b : Byte) : (s.setReg r b).stack = s.stack := rfl
@[simp] theorem State.setReg_sp (s : State) (r : RegIndex) (b : Byte) : (s.setReg r b).sp = s.sp := rfl
@[simp] theorem State.setReg_dt (s : State) (r : RegIndex) (b : Byte) : (s.setReg r b).dt = s.dt := rfl
@[simp] theorem State.setReg_st (s : State) (r : RegIndex) (b : Byte) : (s.setReg r b).st = s.st := rfl
@[simp] theorem State.setReg_kw (s : State) (r : RegIndex) (b : Byte) : (s.setReg r b).kw = s.kw := rfl
@[simp] theorem State.setReg_keys (s : State) (r : RegIndex) (b : Byte) : (s.setReg r b).keys = s.keys := rfl
@[simp] theorem State.setReg_fb (s : State) (r : RegIndex) (b : Byte) : (s.setReg r b).fb = s.fb := rfl
@[simp] theorem State.setReg_fault (s : State) (r : RegIndex) (b : Byte) : (s.setReg r b).fault = s.fault := rfl
@[simp] theorem State.setReg_draws (s : State) (r : RegIndex) (b : Byte) : (s.setReg r b).draws = s.draws := rfl
@[simp] theorem State.setReg_host (s : State) (r : RegIndex) (b : Byte) : (s.setReg r b).host = s.host := rfl

/-! ## `advance` and `skipIf` change `pc` alone -/

@[simp] theorem State.advance_V (s : State) (n : Nat) : (s.advance n).V = s.V := rfl
@[simp] theorem State.advance_I (s : State) (n : Nat) : (s.advance n).I = s.I := rfl
@[simp] theorem State.advance_mem (s : State) (n : Nat) : (s.advance n).mem = s.mem := rfl
@[simp] theorem State.advance_stack (s : State) (n : Nat) : (s.advance n).stack = s.stack := rfl
@[simp] theorem State.advance_sp (s : State) (n : Nat) : (s.advance n).sp = s.sp := rfl
@[simp] theorem State.advance_dt (s : State) (n : Nat) : (s.advance n).dt = s.dt := rfl
@[simp] theorem State.advance_st (s : State) (n : Nat) : (s.advance n).st = s.st := rfl
@[simp] theorem State.advance_kw (s : State) (n : Nat) : (s.advance n).kw = s.kw := rfl
@[simp] theorem State.advance_keys (s : State) (n : Nat) : (s.advance n).keys = s.keys := rfl
@[simp] theorem State.advance_fb (s : State) (n : Nat) : (s.advance n).fb = s.fb := rfl
@[simp] theorem State.advance_fault (s : State) (n : Nat) : (s.advance n).fault = s.fault := rfl
@[simp] theorem State.advance_draws (s : State) (n : Nat) : (s.advance n).draws = s.draws := rfl
@[simp] theorem State.advance_host (s : State) (n : Nat) : (s.advance n).host = s.host := rfl
@[simp] theorem State.advance_pc (s : State) (n : Nat) : (s.advance n).pc = s.pc + BitVec.ofNat 16 n := rfl
@[simp] theorem State.advance_reg (s : State) (n : Nat) (r : RegIndex) : (s.advance n).reg r = s.reg r := rfl
@[simp] theorem State.skipIf_V (s : State) (p : Bool) : (s.skipIf p).V = s.V := rfl
@[simp] theorem State.skipIf_I (s : State) (p : Bool) : (s.skipIf p).I = s.I := rfl
@[simp] theorem State.skipIf_mem (s : State) (p : Bool) : (s.skipIf p).mem = s.mem := rfl
@[simp] theorem State.skipIf_stack (s : State) (p : Bool) : (s.skipIf p).stack = s.stack := rfl
@[simp] theorem State.skipIf_sp (s : State) (p : Bool) : (s.skipIf p).sp = s.sp := rfl
@[simp] theorem State.skipIf_dt (s : State) (p : Bool) : (s.skipIf p).dt = s.dt := rfl
@[simp] theorem State.skipIf_st (s : State) (p : Bool) : (s.skipIf p).st = s.st := rfl
@[simp] theorem State.skipIf_kw (s : State) (p : Bool) : (s.skipIf p).kw = s.kw := rfl
@[simp] theorem State.skipIf_keys (s : State) (p : Bool) : (s.skipIf p).keys = s.keys := rfl
@[simp] theorem State.skipIf_fb (s : State) (p : Bool) : (s.skipIf p).fb = s.fb := rfl
@[simp] theorem State.skipIf_fault (s : State) (p : Bool) : (s.skipIf p).fault = s.fault := rfl
@[simp] theorem State.skipIf_draws (s : State) (p : Bool) : (s.skipIf p).draws = s.draws := rfl
@[simp] theorem State.skipIf_host (s : State) (p : Bool) : (s.skipIf p).host = s.host := rfl
@[simp] theorem State.skipIf_pc (s : State) (p : Bool) :
    (s.skipIf p).pc = s.pc + BitVec.ofNat 16 (if p then 4 else 2) := rfl
@[simp] theorem State.skipIf_reg (s : State) (p : Bool) (r : RegIndex) : (s.skipIf p).reg r = s.reg r := rfl

/-! ## `setKey` changes `keys` alone, `storeAtI` changes `mem` alone -/

@[simp] theorem State.setKey_V (s : State) (k : KeyIndex) (p : Bool) : (s.setKey k p).V = s.V := rfl
@[simp] theorem State.setKey_I (s : State) (k : KeyIndex) (p : Bool) : (s.setKey k p).I = s.I := rfl
@[simp] theorem State.setKey_pc (s : State) (k : KeyIndex) (p : Bool) : (s.setKey k p).pc = s.pc := rfl
@[simp] theorem State.setKey_mem (s : State) (k : KeyIndex) (p : Bool) : (s.setKey k p).mem = s.mem := rfl
@[simp] theorem State.setKey_stack (s : State) (k : KeyIndex) (p : Bool) : (s.setKey k p).stack = s.stack := rfl
@[simp] theorem State.setKey_sp (s : State) (k : KeyIndex) (p : Bool) : (s.setKey k p).sp = s.sp := rfl
@[simp] theorem State.setKey_dt (s : State) (k : KeyIndex) (p : Bool) : (s.setKey k p).dt = s.dt := rfl
@[simp] theorem State.setKey_st (s : State) (k : KeyIndex) (p : Bool) : (s.setKey k p).st = s.st := rfl
@[simp] theorem State.setKey_kw (s : State) (k : KeyIndex) (p : Bool) : (s.setKey k p).kw = s.kw := rfl
@[simp] theorem State.setKey_fb (s : State) (k : KeyIndex) (p : Bool) : (s.setKey k p).fb = s.fb := rfl
@[simp] theorem State.setKey_fault (s : State) (k : KeyIndex) (p : Bool) : (s.setKey k p).fault = s.fault := rfl
@[simp] theorem State.setKey_draws (s : State) (k : KeyIndex) (p : Bool) : (s.setKey k p).draws = s.draws := rfl
@[simp] theorem State.setKey_host (s : State) (k : KeyIndex) (p : Bool) : (s.setKey k p).host = s.host := rfl
@[simp] theorem State.setKey_reg (s : State) (k : KeyIndex) (p : Bool) (r : RegIndex) :
    (s.setKey k p).reg r = s.reg r := rfl
@[simp] theorem State.storeAtI_V (s : State) (bs : List Byte) : (s.storeAtI bs).V = s.V := rfl
@[simp] theorem State.storeAtI_I (s : State) (bs : List Byte) : (s.storeAtI bs).I = s.I := rfl
@[simp] theorem State.storeAtI_pc (s : State) (bs : List Byte) : (s.storeAtI bs).pc = s.pc := rfl
@[simp] theorem State.storeAtI_stack (s : State) (bs : List Byte) : (s.storeAtI bs).stack = s.stack := rfl
@[simp] theorem State.storeAtI_sp (s : State) (bs : List Byte) : (s.storeAtI bs).sp = s.sp := rfl
@[simp] theorem State.storeAtI_dt (s : State) (bs : List Byte) : (s.storeAtI bs).dt = s.dt := rfl
@[simp] theorem State.storeAtI_st (s : State) (bs : List Byte) : (s.storeAtI bs).st = s.st := rfl
@[simp] theorem State.storeAtI_kw (s : State) (bs : List Byte) : (s.storeAtI bs).kw = s.kw := rfl
@[simp] theorem State.storeAtI_keys (s : State) (bs : List Byte) : (s.storeAtI bs).keys = s.keys := rfl
@[simp] theorem State.storeAtI_fb (s : State) (bs : List Byte) : (s.storeAtI bs).fb = s.fb := rfl
@[simp] theorem State.storeAtI_fault (s : State) (bs : List Byte) : (s.storeAtI bs).fault = s.fault := rfl
@[simp] theorem State.storeAtI_draws (s : State) (bs : List Byte) : (s.storeAtI bs).draws = s.draws := rfl
@[simp] theorem State.storeAtI_host (s : State) (bs : List Byte) : (s.storeAtI bs).host = s.host := rfl
@[simp] theorem State.storeAtI_mem (s : State) (bs : List Byte) :
    (s.storeAtI bs).mem = s.mem.setBytes s.I.toNat bs := rfl
@[simp] theorem State.storeAtI_reg (s : State) (bs : List Byte) (r : RegIndex) : (s.storeAtI bs).reg r = s.reg r := rfl

/-! ## `tick` changes `dt` alone (R131, R33) -/

@[simp] theorem State.tick_V (s : State) : (s.tick).V = s.V := rfl
@[simp] theorem State.tick_I (s : State) : (s.tick).I = s.I := rfl
@[simp] theorem State.tick_pc (s : State) : (s.tick).pc = s.pc := rfl
@[simp] theorem State.tick_mem (s : State) : (s.tick).mem = s.mem := rfl
@[simp] theorem State.tick_stack (s : State) : (s.tick).stack = s.stack := rfl
@[simp] theorem State.tick_sp (s : State) : (s.tick).sp = s.sp := rfl
@[simp] theorem State.tick_st (s : State) : (s.tick).st = s.st := rfl
@[simp] theorem State.tick_kw (s : State) : (s.tick).kw = s.kw := rfl
@[simp] theorem State.tick_keys (s : State) : (s.tick).keys = s.keys := rfl
@[simp] theorem State.tick_fb (s : State) : (s.tick).fb = s.fb := rfl
@[simp] theorem State.tick_fault (s : State) : (s.tick).fault = s.fault := rfl
@[simp] theorem State.tick_draws (s : State) : (s.tick).draws = s.draws := rfl
@[simp] theorem State.tick_host (s : State) : (s.tick).host = s.host := rfl
@[simp] theorem State.tick_dt (s : State) : s.tick.dt = countDown s.dt := rfl
@[simp] theorem State.tick_reg (s : State) (r : RegIndex) : s.tick.reg r = s.reg r := rfl

/-! ## Registers (R21): reading back a write, and independence -/

@[simp] theorem State.reg_setReg_self (s : State) (r : RegIndex) (b : Byte) : (s.setReg r b).reg r = b := by
  simp [State.reg, State.setReg]

theorem State.reg_setReg_of_ne (s : State) {r r' : RegIndex} (b : Byte) (h : r' ≠ r) :
    (s.setReg r b).reg r' = s.reg r' := by
  have hne : ¬ r.toNat = r'.toNat := fun e => h (BitVec.eq_of_toNat_eq e.symm)
  simp [State.reg, State.setReg, hne]

theorem State.reg_setReg (s : State) (r r' : RegIndex) (b : Byte) :
    (s.setReg r b).reg r' = if r' = r then b else s.reg r' := by
  split
  · next h => subst h; simp
  · next h => exact s.reg_setReg_of_ne b h

/-- Two register files that read alike are equal (R21: the sixteen cells are all there is). -/
theorem State.V_ext {s t : State} (h : ∀ r, t.reg r = s.reg r) : t.V = s.V := by
  refine Vector.ext fun i hi => ?_
  simpa [State.reg, Nat.mod_eq_of_lt hi] using h (BitVec.ofNat 4 i)

/-! ## Keys (R35) -/

@[simp] theorem State.key_setKey_self (s : State) (k : KeyIndex) (p : Bool) : (s.setKey k p).key k = p := by
  simp [State.key, State.setKey]

theorem State.key_setKey_of_ne (s : State) {k k' : KeyIndex} (p : Bool) (h : k' ≠ k) :
    (s.setKey k p).key k' = s.key k' := by
  have hne : ¬ k.toNat = k'.toNat := fun e => h (BitVec.eq_of_toNat_eq e.symm)
  simp [State.key, State.setKey, hne]

end Sys2Proof.Machine
end

