-- ==== Sys2Proof/Laws/Ops.lean ====
section
/-! SUPPORT. One lemma per shared operation, saying all it can do; provers cite these and do not unfold the operation. -/

namespace Sys2Proof.Machine

/-! ## Flags and operands -/

theorem flagByte_eq_zero_or_one (p : Bool) : flagByte p = 0 ∨ flagByte p = 1 := by cases p <;> simp [flagByte]

theorem zext12_toNat (nnn : Imm12) : (zext12 nnn).toNat = nnn.toNat := by
  have := nnn.isLt
  simp [zext12]; omega

theorem zext8_toNat (b : Byte) : (zext8 b).toNat = b.toNat := by
  have := b.isLt
  simp [zext8]; omega

theorem rangeOut_eq_true_iff (base : Word) (len : Nat) :
    rangeOut base len = true ↔ len ≠ 0 ∧ base.toNat + (len - 1) > 4095 := by
  simp [rangeOut, effectiveAddr, Config.maxAddr]

theorem rangeOut_eq_false_iff (base : Word) (len : Nat) :
    rangeOut base len = false ↔ len = 0 ∨ base.toNat + len ≤ Config.memSize := by
  rw [← Bool.not_eq_true, rangeOut_eq_true_iff]
  simp only [Config.memSize]
  omega

@[simp] theorem bcdDigits_length (v : Byte) : (bcdDigits v).length = 3 := rfl

theorem glyphAddr_toNat (v : Byte) : (glyphAddr v).toNat = v.toNat % 16 * 5 := by
  simp [glyphAddr, Config.glyphBytes, BitVec.extractLsb'_toNat]
  omega

theorem countDown_toNat (t : Byte) : (countDown t).toNat = t.toNat - 1 := by
  revert t; decide

/-! ## The flag-and-result write (R170(e)) -/

theorem State.reg_setFlagAndResult (s : State) (x r : RegIndex) (flag : Bool) (result : Byte) :
    (s.setFlagAndResult x flag result).reg r =
      if r = x then result else if r = VF then flagByte flag else s.reg r := by
  simp [State.setFlagAndResult, State.reg_setReg]

theorem State.setFlagAndResult_eq (s : State) (x : RegIndex) (flag : Bool) (result : Byte) :
    ∃ V, s.setFlagAndResult x flag result = { s with V := V, pc := s.pc + 2 } := ⟨_, rfl⟩

/-! ## Range guard (R66, R206) -/

/-- A guarded access raises its fault or is `done`, as the highest address decides. -/
theorem State.guardRange_cases (s : State) (sub : SubCause) (i : Instr) (len : Nat) (done : State) :
    (len ≠ 0 ∧ s.I.toNat + (len - 1) > 4095 ∧ s.guardRange sub i len done =
        .next { s with fault := some (.addressOutOfRange sub s.pc (some (encode i)) (some (s.I.toNat + (len - 1)))) }) ∨
    ((len = 0 ∨ s.I.toNat + len ≤ Config.memSize) ∧ s.guardRange sub i len done = .next done) := by
  unfold State.guardRange
  cases h : rangeOut s.I len
  · exact .inr ⟨(rangeOut_eq_false_iff s.I len).1 h, rfl⟩
  · have := (rangeOut_eq_true_iff s.I len).1 h
    exact .inl ⟨this.1, this.2, rfl⟩

/-! ## Stack (R31) -/

theorem State.push_of_lt (s : State) (a : Word) (h : s.sp.val < 16) :
    s.push a = some { s with stack := s.stack.set s.sp.val a h, sp := ⟨s.sp.val + 1, Nat.succ_lt_succ h⟩ } := by
  simp [State.push, h]

theorem State.push_of_full (s : State) (a : Word) (h : s.sp.val = 16) : s.push a = none := by
  simp [State.push, h]

theorem State.pop_of_empty (s : State) (h : s.sp.val = 0) : s.pop = none := by
  obtain ⟨⟨V, I, pc, mem, stack, ⟨n, hn⟩, dt, st, kw, keys, fb, fault⟩, draws, host⟩ := s
  simp only at h
  subst h
  rfl

theorem State.pop_of_succ (s : State) (j : Nat) (hj : j < 16) (h : s.sp.val = j + 1) :
    s.pop = some (s.stack[j], { s with sp := ⟨j, by omega⟩ }) := by
  obtain ⟨⟨V, I, pc, mem, stack, ⟨n, hn⟩, dt, st, kw, keys, fb, fault⟩, draws, host⟩ := s
  simp only at h
  subst h
  rfl

theorem State.push_eq_some {s t : State} {a : Word} (h : s.push a = some t) : ∃ hlt : s.sp.val < 16,
    t = { s with stack := s.stack.set s.sp.val a hlt, sp := ⟨s.sp.val + 1, Nat.succ_lt_succ hlt⟩ } := by
  by_cases hlt : s.sp.val < 16
  · rw [State.push_of_lt s a hlt] at h
    exact ⟨hlt, (Option.some.inj h).symm⟩
  · rw [State.push_of_full s a (by omega)] at h
    cases h

theorem State.pop_eq_some {s t : State} {a : Word} (h : s.pop = some (a, t)) :
    ∃ (j : Nat) (hj : j < 16), s.sp.val = j + 1 ∧ a = s.stack[j] ∧ t = { s with sp := ⟨j, by omega⟩ } := by
  obtain h0 | ⟨j, hj⟩ : s.sp.val = 0 ∨ ∃ j, s.sp.val = j + 1 := by
    cases s.sp.val <;> simp
  · rw [State.pop_of_empty s h0] at h
    cases h
  · have hlt : j < 16 := by omega
    rw [State.pop_of_succ s j hlt hj] at h
    cases h
    exact ⟨j, hlt, hj, rfl, rfl⟩

/-! ## Transfers through `I` (R204, R205) -/

theorem State.regsUpTo_length (s : State) (x : RegIndex) : (s.regsUpTo x).length = x.toNat + 1 := by
  have := x.isLt
  simp [State.regsUpTo]; omega

theorem State.getElem_regsUpTo (s : State) (x : RegIndex) (i : Nat) (h : i < (s.regsUpTo x).length) :
    (s.regsUpTo x)[i] = s.reg (BitVec.ofNat 4 i) := by
  have h1 := s.regsUpTo_length x
  have h2 := x.isLt
  have h3 : i % 16 = i := Nat.mod_eq_of_lt (by omega)
  simp [State.regsUpTo, State.reg, h3]

/-- After loading `n` registers, those below `n` hold the bytes at `I + i` and the others are unchanged. -/
theorem State.reg_loadRegs (s : State) (n : Nat) (hn : n ≤ 16) (r : RegIndex) :
    (s.loadRegs n).reg r = if r.toNat < n then s.mem.get (s.I.toNat + r.toNat) else s.reg r := by
  induction n with
  | zero => simp [State.loadRegs]
  | succ n ih =>
    rw [State.loadRegs, State.reg_setReg, ih (by omega)]
    have hr := r.isLt
    by_cases e : r = BitVec.ofNat 4 n
    · have : r.toNat = n := by rw [e]; simp; omega
      rw [if_pos e, if_pos (by omega), this]
      rfl
    · have hne : r.toNat ≠ n := fun h => e (BitVec.eq_of_toNat_eq (by simp; omega))
      rw [if_neg e]
      by_cases hlt : r.toNat < n
      · rw [if_pos hlt, if_pos (by omega)]
      · rw [if_neg hlt, if_neg (by omega)]

theorem State.loadRegs_eq (s : State) (n : Nat) : ∃ V, s.loadRegs n = { s with V := V } := by
  induction n with
  | zero => exact ⟨s.V, rfl⟩
  | succ n ih =>
    obtain ⟨V, hV⟩ := ih
    rw [State.loadRegs, hV]
    exact ⟨_, rfl⟩

/-! ## Fetch (R133) -/

theorem State.fetch_ok (s : State) (h : s.pc.toNat + 1 ≤ 4095) :
    s.fetch = .ok (bigEndian (s.mem.get s.pc.toNat) (s.mem.get (s.pc.toNat + 1))) := by
  simp [State.fetch, Config.maxAddr, show ¬ (4095 < s.pc.toNat + 1) by omega]

theorem State.fetch_error (s : State) (h : 4095 < s.pc.toNat + 1) :
    s.fetch = .error (.addressOutOfRange .fetchPC s.pc none
      (some (if s.pc.toNat > 4095 then s.pc.toNat else s.pc.toNat + 1))) := by
  simp [State.fetch, Config.maxAddr, h]

/-! ## The step (R130): its four ways -/

theorem State.stepCore_halted (s : State) (h : s.fault ≠ none) : s.stepCore = .next s := by
  obtain ⟨f, hf⟩ := Option.ne_none_iff_exists'.1 h
  simp [State.stepCore, hf]

theorem State.stepCore_waiting (s : State) (h : s.fault = none) (hk : s.kw ≠ none) : s.stepCore = .next s.tick := by
  obtain ⟨r, hr⟩ := Option.ne_none_iff_exists'.1 hk
  simp [State.stepCore, h, hr]

theorem State.stepCore_executing (s : State) (h : s.fault = none) (hk : s.kw = none) :
    s.stepCore = s.tick.runInstruction := by
  simp [State.stepCore, h, hk]

theorem State.runInstruction_of_decode (s : State) {op : Word} {i : Instr} (hf : s.fetch = .ok op)
    (hd : decode op = .ok i) : s.runInstruction = exec i s := by
  simp [State.runInstruction, hf, hd]

theorem State.runInstruction_of_illegal (s : State) {op : Word} {e : DecodeError} (hf : s.fetch = .ok op)
    (hd : decode op = .error e) : s.runInstruction = s.raise (.unrecognizedInstruction op s.pc) := by
  simp [State.runInstruction, hf, hd]

theorem State.runInstruction_of_fetch_error (s : State) {f : Fault} (hf : s.fetch = .error f) :
    s.runInstruction = s.raise f := by
  simp [State.runInstruction, hf]

/-- All a `Step` of the core can do (R130): nothing if halted; the tick alone if a key-wait is pending; the tick and
a fault naming `pc`, where nothing is fetched or decoded; or the tick and the instruction. -/
theorem State.stepCore_cases {s t : State} (h : s.stepCore = .next t) :
    (s.fault ≠ none ∧ t = s) ∨
    (s.fault = none ∧ s.kw ≠ none ∧ t = s.tick) ∨
    (s.fault = none ∧ s.kw = none ∧ s.nextInstr = none ∧ ∃ f : Fault, f.pc = s.pc ∧ t = { s.tick with fault := some f }) ∨
    (s.fault = none ∧ s.kw = none ∧ ∃ i, s.nextInstr = some i ∧ s.pc.toNat + 1 ≤ 4095 ∧ exec i s.tick = .next t) := by
  by_cases hr : s.fault = none
  · by_cases hk : s.kw = none
    · rw [State.stepCore_executing s hr hk] at h
      by_cases hp : s.pc.toNat + 1 ≤ 4095
      · have hf := State.fetch_ok s hp
        cases hd : decode (bigEndian (s.mem.get s.pc.toNat) (s.mem.get (s.pc.toNat + 1))) with
        | ok i =>
          rw [State.runInstruction_of_decode s.tick hf hd] at h
          exact .inr (.inr (.inr ⟨hr, hk, i, by simp [State.nextInstr, hr, hk, hf, hd], hp, h⟩))
        | error e =>
          rw [State.runInstruction_of_illegal s.tick hf hd] at h
          cases h
          exact .inr (.inr (.inl ⟨hr, hk, by simp [State.nextInstr, hr, hk, hf, hd], _, rfl, rfl⟩))
      · have hf := State.fetch_error s (by omega)
        rw [State.runInstruction_of_fetch_error s.tick hf] at h
        cases h
        exact .inr (.inr (.inl ⟨hr, hk, by simp [State.nextInstr, hr, hk, hf], _, rfl, rfl⟩))
    · rw [State.stepCore_waiting s hr hk] at h
      cases h
      exact .inr (.inl ⟨hr, hk, rfl⟩)
  · rw [State.stepCore_halted s hr] at h
    cases h
    exact .inl ⟨hr, rfl⟩

/-! ## The host's sequence (R283) -/

theorem step_of_no_transaction (s : State) (h : s.host = []) : step s = s.stepCore := by
  simp [step, State.nextTransaction, h]

/-- A `Step`, listed by the host or not, is the step of the core on the state with the listed one taken off. -/
theorem step_of_stepsNext (s : State) (h : s.stepsNext) :
    step s = State.stepCore { s with host := s.host.tail } := by
  obtain ⟨c, n, ts⟩ := s
  cases ts with
  | nil => rfl
  | cons t rest =>
    rcases h with h | h
    · cases h
    · simp only [List.tail_cons, List.cons.injEq, and_true] at h
      subst h
      rfl

/-- Which instruction a `Step` executes does not depend on the host's list. -/
@[simp] theorem State.nextInstr_host (s : State) (ts : List Transaction) :
    State.nextInstr { s with host := ts } = s.nextInstr := rfl

theorem step_of_transaction (s : State) {t : Transaction} {rest : List Transaction} (h : s.host = t :: rest) :
    step s = State.transact { s with host := rest } t := by
  simp [step, State.nextTransaction, h]

theorem run_zero (s : State) : Host.Core.run Sys2Proof.core 0 s = .next s := rfl

theorem run_succ {s t : State} (h : step s = .next t) (n : Nat) :
    Host.Core.run Sys2Proof.core (n + 1) s = Host.Core.run Sys2Proof.core n t := by
  have h' : Sys2Proof.core.step s = .next t := h
  simp only [Host.Core.run, h']

end Sys2Proof.Machine
end

