-- ==== Sys2Proof/Laws/PerInstr.lean ====
section
/-! SUPPORT. Per-instruction families: one lemma per constructor of Instr. -/

namespace Sys2Proof

/-! ## Operand bits lie outside the fixed bits of their row (R92, R95) -/

theorem placeA_outside (nnn : Imm12) : placeA nnn &&& 0xF000 = 0 := by
  apply word_ext <;> simp [fieldN0_and, fieldX_and, fieldY_and, fieldN_and]

theorem placeXK_outside (x : RegIndex) (kk : Byte) : placeXK x kk &&& 0xF000 = 0 := by
  apply word_ext <;> simp [fieldN0_and, fieldX_and, fieldY_and, fieldN_and]

theorem placeXY_outside (x y : RegIndex) : placeXYN x y 0 &&& 0xF00F = 0 := by
  apply word_ext <;> simp [fieldN0_and, fieldX_and, fieldY_and, fieldN_and]

theorem placeXYN_outside (x y : RegIndex) (n : Nibble) : placeXYN x y n &&& 0xF000 = 0 := by
  apply word_ext <;> simp [fieldN0_and, fieldX_and, fieldY_and, fieldN_and]

theorem placeX_outside (x : RegIndex) : placeX x &&& 0xF0FF = 0 := by
  apply word_ext <;> simp [fieldN0_and, fieldX_and, fieldY_and, fieldN_and]

/-- The instruction's row is a row of the opcode map, its match bits lie under its mask, and its operand fields do
not. -/
def Laws.RowFields.Statement (i : Instr) : Prop :=
  i.row ∈ opcodeTable ∧ i.row.pattern &&& i.row.mask = i.row.pattern ∧ i.operandBits &&& i.row.mask = 0

theorem Laws.RowFields.clearDisplay : Laws.RowFields.Statement (.clearDisplay) :=
  ⟨by rw [Instr.row]; decide, rfl, rfl⟩

theorem Laws.RowFields.ret : Laws.RowFields.Statement (.ret) :=
  ⟨by rw [Instr.row]; decide, rfl, rfl⟩

theorem Laws.RowFields.jump (nnn : Imm12) : Laws.RowFields.Statement (.jump nnn) :=
  ⟨by rw [Instr.row]; decide, by rw [Instr.row]; decide, placeA_outside nnn⟩

theorem Laws.RowFields.call (nnn : Imm12) : Laws.RowFields.Statement (.call nnn) :=
  ⟨by rw [Instr.row]; decide, by rw [Instr.row]; decide, placeA_outside nnn⟩

theorem Laws.RowFields.skipIfEqualsImmediate (x : RegIndex) (kk : Byte) : Laws.RowFields.Statement (.skipIfEqualsImmediate x kk) :=
  ⟨by rw [Instr.row]; decide, by rw [Instr.row]; decide, placeXK_outside x kk⟩

theorem Laws.RowFields.skipIfNotEqualsImmediate (x : RegIndex) (kk : Byte) : Laws.RowFields.Statement (.skipIfNotEqualsImmediate x kk) :=
  ⟨by rw [Instr.row]; decide, by rw [Instr.row]; decide, placeXK_outside x kk⟩

theorem Laws.RowFields.skipIfRegistersEqual (x y : RegIndex) : Laws.RowFields.Statement (.skipIfRegistersEqual x y) :=
  ⟨by rw [Instr.row]; decide, by rw [Instr.row]; decide, placeXY_outside x y⟩

theorem Laws.RowFields.loadImmediate (x : RegIndex) (kk : Byte) : Laws.RowFields.Statement (.loadImmediate x kk) :=
  ⟨by rw [Instr.row]; decide, by rw [Instr.row]; decide, placeXK_outside x kk⟩

theorem Laws.RowFields.addImmediate (x : RegIndex) (kk : Byte) : Laws.RowFields.Statement (.addImmediate x kk) :=
  ⟨by rw [Instr.row]; decide, by rw [Instr.row]; decide, placeXK_outside x kk⟩

theorem Laws.RowFields.move (x y : RegIndex) : Laws.RowFields.Statement (.move x y) :=
  ⟨by rw [Instr.row]; decide, by rw [Instr.row]; decide, placeXY_outside x y⟩

theorem Laws.RowFields.or (x y : RegIndex) : Laws.RowFields.Statement (.or x y) :=
  ⟨by rw [Instr.row]; decide, by rw [Instr.row]; decide, placeXY_outside x y⟩

theorem Laws.RowFields.and (x y : RegIndex) : Laws.RowFields.Statement (.and x y) :=
  ⟨by rw [Instr.row]; decide, by rw [Instr.row]; decide, placeXY_outside x y⟩

theorem Laws.RowFields.xor (x y : RegIndex) : Laws.RowFields.Statement (.xor x y) :=
  ⟨by rw [Instr.row]; decide, by rw [Instr.row]; decide, placeXY_outside x y⟩

theorem Laws.RowFields.add (x y : RegIndex) : Laws.RowFields.Statement (.add x y) :=
  ⟨by rw [Instr.row]; decide, by rw [Instr.row]; decide, placeXY_outside x y⟩

theorem Laws.RowFields.sub (x y : RegIndex) : Laws.RowFields.Statement (.sub x y) :=
  ⟨by rw [Instr.row]; decide, by rw [Instr.row]; decide, placeXY_outside x y⟩

theorem Laws.RowFields.shiftRight (x y : RegIndex) : Laws.RowFields.Statement (.shiftRight x y) :=
  ⟨by rw [Instr.row]; decide, by rw [Instr.row]; decide, placeXY_outside x y⟩

theorem Laws.RowFields.reverseSub (x y : RegIndex) : Laws.RowFields.Statement (.reverseSub x y) :=
  ⟨by rw [Instr.row]; decide, by rw [Instr.row]; decide, placeXY_outside x y⟩

theorem Laws.RowFields.shiftLeft (x y : RegIndex) : Laws.RowFields.Statement (.shiftLeft x y) :=
  ⟨by rw [Instr.row]; decide, by rw [Instr.row]; decide, placeXY_outside x y⟩

theorem Laws.RowFields.skipIfRegistersNotEqual (x y : RegIndex) : Laws.RowFields.Statement (.skipIfRegistersNotEqual x y) :=
  ⟨by rw [Instr.row]; decide, by rw [Instr.row]; decide, placeXY_outside x y⟩

theorem Laws.RowFields.loadIndex (nnn : Imm12) : Laws.RowFields.Statement (.loadIndex nnn) :=
  ⟨by rw [Instr.row]; decide, by rw [Instr.row]; decide, placeA_outside nnn⟩

theorem Laws.RowFields.jumpPlusRegister0 (nnn : Imm12) : Laws.RowFields.Statement (.jumpPlusRegister0 nnn) :=
  ⟨by rw [Instr.row]; decide, by rw [Instr.row]; decide, placeA_outside nnn⟩

theorem Laws.RowFields.loadRandomMasked (x : RegIndex) (kk : Byte) : Laws.RowFields.Statement (.loadRandomMasked x kk) :=
  ⟨by rw [Instr.row]; decide, by rw [Instr.row]; decide, placeXK_outside x kk⟩

theorem Laws.RowFields.drawSprite (x y : RegIndex) (n : Nibble) : Laws.RowFields.Statement (.drawSprite x y n) :=
  ⟨by rw [Instr.row]; decide, by rw [Instr.row]; decide, placeXYN_outside x y n⟩

theorem Laws.RowFields.skipIfKeyPressed (x : RegIndex) : Laws.RowFields.Statement (.skipIfKeyPressed x) :=
  ⟨by rw [Instr.row]; decide, by rw [Instr.row]; decide, placeX_outside x⟩

theorem Laws.RowFields.skipIfKeyNotPressed (x : RegIndex) : Laws.RowFields.Statement (.skipIfKeyNotPressed x) :=
  ⟨by rw [Instr.row]; decide, by rw [Instr.row]; decide, placeX_outside x⟩

theorem Laws.RowFields.readDelayTimer (x : RegIndex) : Laws.RowFields.Statement (.readDelayTimer x) :=
  ⟨by rw [Instr.row]; decide, by rw [Instr.row]; decide, placeX_outside x⟩

theorem Laws.RowFields.waitForKey (x : RegIndex) : Laws.RowFields.Statement (.waitForKey x) :=
  ⟨by rw [Instr.row]; decide, by rw [Instr.row]; decide, placeX_outside x⟩

theorem Laws.RowFields.setDelayTimer (x : RegIndex) : Laws.RowFields.Statement (.setDelayTimer x) :=
  ⟨by rw [Instr.row]; decide, by rw [Instr.row]; decide, placeX_outside x⟩

theorem Laws.RowFields.setSoundTimer (x : RegIndex) : Laws.RowFields.Statement (.setSoundTimer x) :=
  ⟨by rw [Instr.row]; decide, by rw [Instr.row]; decide, placeX_outside x⟩

theorem Laws.RowFields.addToIndex (x : RegIndex) : Laws.RowFields.Statement (.addToIndex x) :=
  ⟨by rw [Instr.row]; decide, by rw [Instr.row]; decide, placeX_outside x⟩

theorem Laws.RowFields.loadFontGlyphAddress (x : RegIndex) : Laws.RowFields.Statement (.loadFontGlyphAddress x) :=
  ⟨by rw [Instr.row]; decide, by rw [Instr.row]; decide, placeX_outside x⟩

theorem Laws.RowFields.storeBCD (x : RegIndex) : Laws.RowFields.Statement (.storeBCD x) :=
  ⟨by rw [Instr.row]; decide, by rw [Instr.row]; decide, placeX_outside x⟩

theorem Laws.RowFields.storeRegisters (x : RegIndex) : Laws.RowFields.Statement (.storeRegisters x) :=
  ⟨by rw [Instr.row]; decide, by rw [Instr.row]; decide, placeX_outside x⟩

theorem Laws.RowFields.loadRegisters (x : RegIndex) : Laws.RowFields.Statement (.loadRegisters x) :=
  ⟨by rw [Instr.row]; decide, by rw [Instr.row]; decide, placeX_outside x⟩

end Sys2Proof
end

