-- ==== Sys2Proof/Machine/Assembler.lean ====
section
/-! DEFINITION. The assembly language of 30_encoding.md R103: text to a program image. It is no part of the machine
(D20): it serves whoever writes an image for `Reset`. Anything out of form or out of range is an error (`none`),
never truncated. -/

namespace Sys2Proof

/-- A token of a source text. -/
inductive Tok where
  | word (chars : List Char)
  | lparen
  | rparen
  | comma
  | colon
  | equals
  | newline
  deriving DecidableEq, Repr

/-- The token of a punctuation character. -/
def punctuation (c : Char) : Option Tok :=
  if c = '(' then some .lparen
  else if c = ')' then some .rparen
  else if c = ',' then some .comma
  else if c = ':' then some .colon
  else if c = '=' then some .equals
  else if c = '\n' then some .newline
  else none

/-- Put the word collected so far (last character first) in front of the later tokens. -/
def closeWord (collected : List Char) (rest : List Tok) : List Tok :=
  if collected.isEmpty then rest else .word collected.reverse :: rest

/-- Split a text into tokens: words of letters, digits, `_` and `.`, and punctuation; `;` starts a comment that runs
to the end of the line (R103); blanks separate (log 22). -/
def lexText : List Char → List Char → Bool → Option (List Tok)
  | [], collected, _ => some (closeWord collected [])
  | c :: cs, collected, comment =>
    if comment ∧ c ≠ '\n' then lexText cs [] true
    else if c.isAlphanum ∨ c = '_' ∨ c = '.' then lexText cs (c :: collected) false
    else if c = ';' then (lexText cs [] true).map (closeWord collected)
    else if c = ' ' ∨ c = '\t' then (lexText cs [] false).map (closeWord collected)
    else (punctuation c).bind fun t => (lexText cs [] false).map fun ts => closeWord collected (t :: ts)

/-- The lines of a token sequence. -/
def tokenLines : List Tok → List (List Tok)
  | [] => [[]]
  | .newline :: ts => [] :: tokenLines ts
  | t :: ts =>
    match tokenLines ts with
    | [] => [[t]]
    | l :: ls => (t :: l) :: ls

/-- The value of a digit character, up to 15. -/
def digitValue (c : Char) : Option Nat :=
  if '0' ≤ c ∧ c ≤ '9' then some (c.toNat - 48)
  else if 'A' ≤ c ∧ c ≤ 'F' then some (c.toNat - 55)
  else if 'a' ≤ c ∧ c ≤ 'f' then some (c.toNat - 87)
  else none

/-- The number of a digit sequence in a base, going on from `acc`. -/
def digitsValue (base : Nat) : List Char → Nat → Option Nat
  | [], acc => some acc
  | c :: cs, acc => (digitValue c).bind fun d => if d < base then digitsValue base cs (acc * base + d) else none

/-- A decimal or `0x` hexadecimal number (R103). -/
def numberValue : List Char → Option Nat
  | [] => none
  | '0' :: 'x' :: d :: ds => digitsValue 16 (d :: ds) 0
  | d :: ds => digitsValue 10 (d :: ds) 0

/-- An argument before labels are resolved. -/
inductive AsmArg where
  | value (a : RawArg)
  | label (name : List Char)
  deriving DecidableEq, Repr

/-- A word as an argument: a number, a register name, else a label (R103). -/
def wordArg (w : List Char) : AsmArg :=
  match numberValue w with
  | some n => .value (.num n)
  | none =>
    match w with
    | ['V', c] =>
      match digitValue c with
      | some r => if c.isLower then .label w else .value (.reg r)
      | none => .label w
    | _ => .label w

/-- One line's content. -/
inductive AsmItem where
  | instr (name : List Char) (args : List AsmArg)
  | bytes (values : List Byte)
  | blank
  deriving DecidableEq, Repr

/-- Arguments up to the closing parenthesis, each with an optional `label=` that is ignored (R103). -/
def parseArgs : List Tok → Option (List AsmArg)
  | .word _ :: .equals :: .word v :: .comma :: rest => (parseArgs rest).map (wordArg v :: ·)
  | [.word _, .equals, .word v, .rparen] => some [wordArg v]
  | .word v :: .comma :: rest => (parseArgs rest).map (wordArg v :: ·)
  | [.word v, .rparen] => some [wordArg v]
  | _ => none

/-- The byte of a word of `.byte`: a number 0 to 255. -/
def byteOfWord (w : List Char) : Option Byte := (numberValue w).bind fun n => checkByte (.num n)

/-- The values of `.byte v, v, ...` (R103). -/
def parseBytes : List Tok → Option (List Byte)
  | .word v :: .comma :: rest => (byteOfWord v).bind fun b => (parseBytes rest).map (b :: ·)
  | [.word v] => (byteOfWord v).map fun b => [b]
  | _ => none

/-- A line: labels, then an instruction, `.byte`, or nothing. -/
def parseLine : List Tok → Option (List (List Char) × AsmItem)
  | [] => some ([], .blank)
  | .word l :: .colon :: rest => (parseLine rest).map fun p => (l :: p.1, p.2)
  | [.word name] => some ([], .instr name [])
  | .word name :: .lparen :: rest => (parseArgs rest).map fun args => ([], .instr name args)
  | .word name :: rest =>
    if name = ['.', 'b', 'y', 't', 'e'] then (parseBytes rest).map fun bs => ([], .bytes bs) else none
  | _ => none

/-- Parse every line. -/
def parseLines : List (List Tok) → Option (List (List (List Char) × AsmItem))
  | [] => some []
  | l :: ls => (parseLine l).bind fun p => (parseLines ls).map (p :: ·)

/-- How many bytes an item takes (R90). -/
def AsmItem.size : AsmItem → Nat
  | .instr _ _ => Config.instrBytes
  | .bytes values => values.length
  | .blank => 0

/-- The labels with their addresses, from address `a` on (R103). -/
def labelTable : Nat → List (List (List Char) × AsmItem) → List (List Char × Nat)
  | _, [] => []
  | a, (ls, item) :: rest => ls.map (fun l => (l, a)) ++ labelTable (a + item.size) rest

/-- Resolve an argument: a label becomes the address it names; an unknown one, or one with two meanings, is an
error. -/
def AsmArg.resolve (table : List (List Char × Nat)) : AsmArg → Option RawArg
  | .value a => some a
  | .label name =>
    match table.filter (fun p => p.1 = name) with
    | [(_, a)] => some (.label a)
    | _ => none

/-- Resolve every argument. -/
def resolveArgs (table : List (List Char × Nat)) : List AsmArg → Option (List RawArg)
  | [] => some []
  | a :: as => (a.resolve table).bind fun r => (resolveArgs table as).map (r :: ·)

/-- The bytes of an item (R62, R99). -/
def AsmItem.image (table : List (List Char × Nat)) : AsmItem → Option (List Byte)
  | .instr name args =>
    (resolveArgs table args).bind fun rs => ((RawInstr.mk (String.ofList name) rs).check).map encodeBytes
  | .bytes values => some values
  | .blank => some []

/-- The bytes of all items in order. -/
def itemsImage (table : List (List Char × Nat)) : List (List (List Char) × AsmItem) → Option (List Byte)
  | [] => some []
  | (_, item) :: rest => (item.image table).bind fun bs => (itemsImage table rest).map (bs ++ ·)

/-- Assemble a text into the image `Reset` takes, the first instruction at 0x200 (R103, R301). -/
def assemble (text : String) : Option (List Byte) :=
  (lexText text.toList [] false).bind fun toks =>
    (parseLines (tokenLines toks)).bind fun items =>
      itemsImage (labelTable Config.progBase items) items

end Sys2Proof
end

