-- ==== Sys2Proof/Tests/Slice0.lean ====
section
/-! SUPPORT. Tests. Expected results are the vectors of 95_test_vectors.md (named T-..., S..., P...) or worked out by
hand from the rule named. Each test looks at a few fields after one step on a small state. -/

namespace Sys2Proof.Tests

open Sys2Proof.Machine

/-! ## Helpers -/

/-- The state after a transaction, if it has one. -/
def after : Result → Option State
  | .next t => some t
  | _ => none

/-- The reset state with some registers set. -/
def regs (rs : List (RegIndex × Byte)) : State := rs.foldl (fun s p => s.setReg p.1 p.2) State.reset

/-- One step of the word `w` placed at `pc`. -/
def stepWord (w : Nat) (s : State) : Option State := after (step (s.withFetchWord 16 w))

/-- A register of the state after one step. -/
def regAfter (w : Nat) (s : State) (r : RegIndex) : Option Byte := (stepWord w s).map (·.reg r)

/-- `pc` after one step. -/
def pcAfter (w : Nat) (s : State) : Option Word := (stepWord w s).map (·.pc)

/-- The latch after one step. -/
def faultAfter (w : Nat) (s : State) : Option (Option Fault) := (stepWord w s).map (·.fault)

/-- The lit pixels of one row. -/
def litInRow (fb : Framebuffer) (row : Fin 32) : List Nat :=
  (List.finRange 64).filterMap fun col => if fb.pixel row col then some col.val else none

/-- A sprite state: bytes at 0x300 with `I` there, an origin in V0 and V1. -/
def spriteState (bytes : List Byte) (x y : Byte) : State :=
  { regs [(0, x), (1, y)] with mem := Memory.ofImage 0x300 bytes, I := 0x300 }

/-! ## Well-formedness: every check of WellFormed refuses an ill-formed term (R103) -/

theorem test_wf_accepts : (RawInstr.mk "DrawSprite" [.reg 1, .num 2, .num 15]).check = some (.drawSprite 1 2 15) := by decide
theorem test_wf_register_16 : (RawInstr.mk "Move" [.num 16, .num 0]).wellFormed = false := by decide
theorem test_wf_register_name_16 : (RawInstr.mk "WaitForKey" [.reg 16]).wellFormed = false := by decide
theorem test_wf_register_label : (RawInstr.mk "WaitForKey" [.label 3]).wellFormed = false := by decide
theorem test_wf_count_16 : (RawInstr.mk "DrawSprite" [.num 0, .num 0, .num 16]).wellFormed = false := by decide
theorem test_wf_count_register : (RawInstr.mk "DrawSprite" [.num 0, .num 0, .reg 1]).wellFormed = false := by decide
theorem test_wf_byte_256 : (RawInstr.mk "LoadImmediate" [.num 0, .num 256]).wellFormed = false := by decide
theorem test_wf_byte_register : (RawInstr.mk "LoadImmediate" [.num 0, .reg 1]).wellFormed = false := by decide
theorem test_wf_address_4096 : (RawInstr.mk "Jump" [.num 4096]).wellFormed = false := by decide
theorem test_wf_label_4096 : (RawInstr.mk "Jump" [.label 4096]).wellFormed = false := by decide
theorem test_wf_address_register : (RawInstr.mk "Jump" [.reg 1]).wellFormed = false := by decide
theorem test_wf_arity_A : (RawInstr.mk "Call" []).wellFormed = false := by decide
theorem test_wf_arity_XK : (RawInstr.mk "AddImmediate" [.num 0]).wellFormed = false := by decide
theorem test_wf_arity_XY : (RawInstr.mk "Add" [.num 0]).wellFormed = false := by decide
theorem test_wf_arity_XYN : (RawInstr.mk "DrawSprite" [.num 0, .num 0]).wellFormed = false := by decide
theorem test_wf_arity_X : (RawInstr.mk "StoreBCD" [.num 0, .num 1]).wellFormed = false := by decide
theorem test_wf_arity_Z : (RawInstr.mk "Return" [.num 0]).wellFormed = false := by decide
theorem test_wf_name : (RawInstr.mk "Nop" []).wellFormed = false := by decide
theorem test_wf_name_case : (RawInstr.mk "return" []).wellFormed = false := by decide
theorem test_wf_image_3585 : imageWellFormed (List.replicate 3585 0) = false := by decide +kernel

/-! ## Decoding: for each of the 34 constructors a word written out from the patterns of R95, then illegal words -/

/-- T-E1, T-E2, T-E7 and the patterns of rows 1 to 12. -/
theorem test_decode_words_a : ([0x00E0, 0x00EE, 0x1ABC, 0x2FFF, 0x3A12, 0x4B34, 0x5120, 0x6C56, 0x7D78, 0x8120, 0x8341,
      0x8562].map (decodeTableWord 16)) =
    [some .clearDisplay, some .ret, some (.jump 0xABC), some (.call 0xFFF), some (.skipIfEqualsImmediate 0xA 0x12),
     some (.skipIfNotEqualsImmediate 0xB 0x34), some (.skipIfRegistersEqual 1 2), some (.loadImmediate 0xC 0x56),
     some (.addImmediate 0xD 0x78), some (.move 1 2), some (.or 3 4), some (.and 5 6)] := by decide

/-- T-E11, T-E13, T-E14, T-E16, T-E17, T-E18 and the patterns of rows 13 to 23. -/
theorem test_decode_words_b : ([0x8783, 0x8124, 0x8125, 0x8126, 0x8127, 0x812E, 0x9AB0, 0xA300, 0xB123, 0xC1FF,
      0xD125].map (decodeTableWord 16)) =
    [some (.xor 7 8), some (.add 1 2), some (.sub 1 2), some (.shiftRight 1 2), some (.reverseSub 1 2),
     some (.shiftLeft 1 2), some (.skipIfRegistersNotEqual 10 11), some (.loadIndex 0x300),
     some (.jumpPlusRegister0 0x123), some (.loadRandomMasked 1 0xFF), some (.drawSprite 1 2 5)] := by decide

/-- T-E20, T-E21, T-E23, T-E24 and the patterns of rows 24 to 34. -/
theorem test_decode_words_c : ([0xE19E, 0xE1A1, 0xF407, 0xF10A, 0xF015, 0xF118, 0xF21E, 0xF029, 0xF433, 0xF155,
      0xF265].map (decodeTableWord 16)) =
    [some (.skipIfKeyPressed 1), some (.skipIfKeyNotPressed 1), some (.readDelayTimer 4), some (.waitForKey 1),
     some (.setDelayTimer 0), some (.setSoundTimer 1), some (.addToIndex 2), some (.loadFontGlyphAddress 0),
     some (.storeBCD 4), some (.storeRegisters 1), some (.loadRegisters 2)] := by decide

/-- T-E3 to T-E6, T-E10, T-E12, T-E15, T-E22 to T-E25: failures. -/
theorem test_decode_illegal : ([0x0000, 0x01E0, 0x00E1, 0x0123, 0x5121, 0x9ABF, 0x8128, 0x8129, 0x812A, 0x812B, 0x812C,
      0x812D, 0x812F, 0xE19F, 0xF156, 0xF100, 0xFFFF].all fun w => decodeTableWord 16 w == none) = true := by decide

/-- The encoder's table against R95: 34 rows, pairwise disjoint. -/
theorem test_rows_disjoint : opcodeTable.length = 34 ∧
    opcodeTable.Pairwise (fun a b => a.pattern &&& b.mask ≠ b.pattern) := by decide

theorem test_encode : encode (.drawSprite 1 2 5) = 0xD125 ∧ encode (.storeBCD 4) = 0xF433 := by decide
theorem test_truncated : decodeBytes [0x12] = .error (.truncated 1) := by decide

/-! ## Assembler (R103) -/

/-- Program P4 of 95_test_vectors.md. -/
theorem test_assemble_P4 : assemble "LoadImmediate(V0, 10)
        SetDelayTimer(V0)
        WaitForKey(register=3) ; the wait
        ReadDelayTimer(V4)
        SkipIfKeyPressed(V3)
no:     Jump(no)
        ClearDisplay
yes:    Jump(yes)" = some [0x60, 0x0A, 0xF0, 0x15, 0xF3, 0x0A, 0xF4, 0x07, 0xE3, 0x9E, 0x12, 0x0A, 0x00, 0xE0,
      0x12, 0x0E] := by decide +kernel
theorem test_assemble_bytes : assemble ".byte 0xFF, 7" = some [0xFF, 7] := by decide +kernel
theorem test_assemble_out_of_range : assemble "LoadImmediate(VA, 256)" = none := by decide +kernel

/-! ## Control transfer (T-B) -/

theorem test_jump_B1 : pcAfter 0x1204 { State.reset with pc := 0x20A } = some 0x204 := by decide
theorem test_jump_B2_ticks : (stepWord 0x1200 { State.reset with dt := 3 }).map (fun t => (t.pc, t.dt)) = some (0x200, 2) := by decide
theorem test_call_B4 : (stepWord 0x2206 State.reset).map (fun t => (t.pc, t.sp.val, t.stack[0])) = some (0x206, 1, 0x200) := by decide
theorem test_call_B5 : faultAfter 0x2300 { State.reset with sp := 16 } =
    some (some (.addressOutOfRange .stackPush 0x200 (some 0x2300) none)) := by decide
theorem test_return_B6 : (stepWord 0x00EE { State.reset with pc := 0x210, sp := 1, stack := State.reset.stack.set 0 0x200 }).map
    (fun t => (t.pc, t.sp.val, t.stack[0])) = some (0x202, 0, 0x200) := by decide
theorem test_return_B7 : faultAfter 0x00EE State.reset =
    some (some (.addressOutOfRange .stackPop 0x200 (some 0x00EE) none)) := by decide
theorem test_skipEqImm_B8_B9 : (pcAfter 0x3100 (regs [(1, 0)]), pcAfter 0x3100 (regs [(1, 4)])) = (some 0x204, some 0x202) := by decide
theorem test_skipNeImm_B11_B12 : (pcAfter 0x4A07 (regs [(10, 7)]), pcAfter 0x4A07 (regs [(10, 8)])) = (some 0x202, some 0x204) := by decide
theorem test_skipEq_B13_B14 : (pcAfter 0x5120 (regs [(1, 9), (2, 9)]), pcAfter 0x5120 (regs [(1, 9), (2, 8)])) = (some 0x204, some 0x202) := by decide
theorem test_skipNe_B16_B17 : (pcAfter 0x9120 (regs [(1, 9), (2, 8)]), pcAfter 0x9330 State.reset) = (some 0x204, some 0x202) := by decide
theorem test_jumpPlus_B18_B19 : (pcAfter 0xB300 (regs [(0, 4)]), pcAfter 0xBFFF (regs [(0, 0xFF)])) = (some 0x304, some 0x10FE) := by decide

/-! ## ALU (T-A) -/

theorem test_loadImmediate_A2 : regAfter 0x6FAB State.reset 0xF = some 0xAB := by decide
theorem test_addImmediate_A5 : (regAfter 0x7101 (regs [(1, 255), (0xF, 9)]) 1, regAfter 0x7101 (regs [(1, 255), (0xF, 9)]) 0xF) = (some 0, some 9) := by decide
theorem test_move_A7 : regAfter 0x8120 (regs [(2, 0x7E)]) 1 = some 0x7E := by decide
theorem test_or_A8 : (regAfter 0x8121 (regs [(1, 0xF0), (2, 0x0F), (0xF, 1)]) 1, regAfter 0x8121 (regs [(1, 0xF0), (2, 0x0F), (0xF, 1)]) 0xF) = (some 0xFF, some 1) := by decide
theorem test_and_A9 : regAfter 0x8122 (regs [(1, 0xF3), (2, 0x3C)]) 1 = some 0x30 := by decide
theorem test_xor_A10 : regAfter 0x8123 (regs [(1, 0xFF), (2, 0x0F)]) 1 = some 0xF0 := by decide
theorem test_add_S4 : (stepWord 0x8564 (regs [(5, 200), (6, 100)])).map (fun t => (t.reg 0xF, t.reg 5, t.reg 6)) = some (1, 44, 100) := by decide
theorem test_add_A15_A16 : (regAfter 0x8F14 (regs [(0xF, 200), (1, 100)]) 0xF, regAfter 0x81F4 (regs [(1, 255), (0xF, 1)]) 1) = (some 44, some 0) := by decide
theorem test_sub_S5 : (stepWord 0x8125 (regs [(1, 5), (2, 10)])).map (fun t => (t.reg 0xF, t.reg 1, t.reg 2)) = some (0, 251, 10) := by decide
theorem test_sub_A18 : (stepWord 0x8125 (regs [(1, 7), (2, 7), (0xF, 5)])).map (fun t => (t.reg 0xF, t.reg 1)) = some (0, 0) := by decide
theorem test_reverseSub_A21 : (stepWord 0x8127 (regs [(1, 5), (2, 10)])).map (fun t => (t.reg 0xF, t.reg 1)) = some (1, 5) := by decide
theorem test_reverseSub_A22 : (stepWord 0x8127 (regs [(1, 10), (2, 5)])).map (fun t => (t.reg 0xF, t.reg 1)) = some (0, 251) := by decide
theorem test_shiftRight_A25 : (stepWord 0x8126 (regs [(1, 0xFF)])).map (fun t => (t.reg 0xF, t.reg 1, t.reg 2)) = some (1, 0x7F, 0) := by decide
theorem test_shiftRight_A26 : regAfter 0x8F06 (regs [(0xF, 3)]) 0xF = some 1 := by decide
theorem test_shiftLeft_A27 : (stepWord 0x810E (regs [(1, 0x81)])).map (fun t => (t.reg 0xF, t.reg 1)) = some (1, 2) := by decide
theorem test_shiftLeft_A28 : (stepWord 0x810E (regs [(1, 0x40)])).map (fun t => (t.reg 0xF, t.reg 1)) = some (0, 0x80) := by decide
theorem test_random_A30 : (State.loadMasked State.reset 1 0xA7 0x0F).reg 1 = 0x07 := by decide
theorem test_random_draws_once : (stepWord 0xC10F State.reset).map (fun t => (t.pc, t.draws)) = some (0x202, 1) := by decide

/-! ## Index register and memory (T-M) -/

theorem test_loadIndex_M2 : (stepWord 0xAFFF State.reset).map (·.I) = some 0xFFF := by decide
theorem test_addToIndex_M5 : (stepWord 0xF21E { regs [(2, 2)] with I := 0xFFFF }).map (fun t => (t.I, t.reg 0xF)) = some (1, 0) := by decide
theorem test_glyph_M7 : (stepWord 0xF029 (regs [(0, 0x1A)])).map (·.I) = some 0x32 := by decide
theorem test_storeBCD_S7 : (stepWord 0xF433 { regs [(4, 157)] with I := 0x300 }).map (fun t => (t.mem.getBytes 0x300 3, t.I)) = some ([1, 5, 7], 0x300) := by decide
theorem test_storeBCD_M10 : (stepWord 0xF033 { regs [(0, 255)] with I := 0xFFE }).map (fun t => (t.fault, t.mem.get 0xFFE)) =
    some (some (.addressOutOfRange .indexWrite 0x200 (some 0xF033) (some 0x1000)), 0) := by decide
theorem test_storeRegisters_M15 : (stepWord 0xF055 { regs [(0, 0x77), (1, 0x88)] with I := 0x300 }).map (fun t => t.mem.getBytes 0x300 2) = some [0x77, 0] := by decide
theorem test_storeRegisters_M14 : faultAfter 0xFF55 { State.reset with I := 0xFF1 } =
    some (some (.addressOutOfRange .indexWrite 0x200 (some 0xFF55) (some 0x1000))) := by decide
theorem test_loadRegisters_M16 : (stepWord 0xF065 { regs [(0, 9), (1, 9)] with I := 0xFFF, mem := [(0xFFF, 0x77)] }).map (fun t => (t.reg 0, t.reg 1)) = some (0x77, 9) := by decide
theorem test_loadRegisters_M17 : (stepWord 0xF165 { regs [(0, 9), (1, 9)] with I := 0xFFF, mem := [(0xFFF, 0x77)] }).map (fun t => (t.fault, t.reg 0)) =
    some (some (.addressOutOfRange .indexRead 0x200 (some 0xF165) (some 0x1000)), 9) := by decide
/-- T-M18: depends on `FONT_TABLE`. -/
theorem test_font_M18 : (stepWord 0xF265 State.reset).map (fun t => (t.reg 0, t.reg 1, t.reg 2)) = some (0xF0, 0x90, 0x90) := by decide

/-! ## Display (T-F) -/

theorem test_draw_F1 : (stepWord 0xD011 (spriteState [0xA0] 0 0)).map (fun t => (litInRow t.fb 0, t.reg 0xF)) = some ([0, 2], 0) := by decide
theorem test_draw_F5 : (stepWord 0xD011 (spriteState [0xC0] 255 255)).map (fun t => (litInRow t.fb 31, t.reg 0xF)) = some ([0, 63], 0) := by decide
theorem test_draw_F7 : (stepWord 0xD011 { spriteState [0xA0] 0 0 with fb := (Framebuffer.clear.setPixel 0 0 true).setPixel 0 1 true }).map
    (fun t => (litInRow t.fb 0, t.reg 0xF)) = some ([1, 2], 1) := by decide
theorem test_draw_F10 : (stepWord 0xD000 { regs [(0xF, 7)] with I := 0xFFFF }).map (fun t => (t.fault, t.reg 0xF)) = some (none, 0) := by decide
theorem test_draw_F11 : faultAfter 0xD001 { State.reset with I := 0x1000 } =
    some (some (.addressOutOfRange .indexRead 0x200 (some 0xD001) (some 0x1000))) := by decide
theorem test_draw_F13 : (stepWord 0xDFF1 ({ spriteState [0x80] 0 0 with fb := Framebuffer.clear }.setReg 0xF 2)).map
    (fun t => (litInRow t.fb 2, t.reg 0xF)) = some ([2], 0) := by decide
theorem test_clear_F14 : (stepWord 0x00E0 { regs [(0xF, 1)] with fb := Framebuffer.clear.setPixel 5 5 true }).map
    (fun t => (t.fb.pixel 5 5, t.reg 0xF)) = some (false, 1) := by decide

/-! ## Keypad and timers (T-K) -/

theorem test_skipKey_K1 : pcAfter 0xE09E ((regs [(0, 15)]).setKey 15 true) = some 0x204 := by decide
theorem test_skipKey_K4 : faultAfter 0xE09E (regs [(0, 16)]) =
    some (some (.addressOutOfRange .keyIndex 0x200 (some 0xE09E) (some 16))) := by decide
theorem test_skipNotKey_K2_K3 : (pcAfter 0xE0A1 ((regs [(0, 15)]).setKey 15 true), pcAfter 0xE0A1 State.reset) = (some 0x202, some 0x204) := by decide
theorem test_skipNotKey_K5 : faultAfter 0xE3A1 (regs [(3, 0xFF)]) =
    some (some (.addressOutOfRange .keyIndex 0x200 (some 0xE3A1) (some 255))) := by decide
theorem test_wait_K6 : (stepWord 0xF30A State.reset).map (fun t => (t.kw, t.pc, t.reg 3)) = some (some 3, 0x202, 0) := by decide
theorem test_waiting_K7 : (after (step { State.reset with kw := some 3, dt := 5, pc := 0x202 })).map (fun t => (t.dt, t.pc, t.kw, t.fault)) =
    some (4, 0x202, some 3, none) := by decide
theorem test_press_K8 : (after (step { State.reset with kw := some 3, dt := 5, host := [.keyPress 7] })).map
    (fun t => (t.key 7, t.reg 3, t.kw, t.dt)) = some (true, 7, none, 5) := by decide
theorem test_press_K9 : (after (step { State.reset with host := [.keyPress 7] })).map (fun t => (t.key 7, t.reg 3, t.pc)) = some (true, 0, 0x200) := by decide
theorem test_release_K10 : (after (step { State.reset.setKey 7 true with kw := some 3, host := [.keyRelease 7] })).map
    (fun t => (t.key 7, t.kw)) = some (false, some 3) := by decide
theorem test_readTimer_K12 : (stepWord 0xF407 { State.reset with dt := 10 }).map (fun t => (t.dt, t.reg 4)) = some (9, 9) := by decide
theorem test_readTimer_K14 : (stepWord 0xF407 (regs [(4, 9)])).map (fun t => (t.dt, t.reg 4)) = some (0, 0) := by decide
theorem test_setTimer_K15 : (stepWord 0xF015 { regs [(0, 10)] with dt := 200 }).map (·.dt) = some 10 := by decide
theorem test_setSound_K16 : (stepWord 0xF118 (regs [(1, 0x20)])).map (fun t => (t.st, (after (step t)).map (·.st))) = some (0x20, some 0x20) := by decide

/-! ## Faults and reset (T-X) -/

theorem test_illegal_X1 : (after (step { State.reset with dt := 5 })).map (fun t => (t.fault, t.dt, t.pc)) =
    some (some (.unrecognizedInstruction 0 0x200), 4, 0x200) := by decide
/-- T-X2, T-K17: a halted core. -/
theorem test_halted_X2 : (after (step { State.reset with dt := 4, fault := some (.unrecognizedInstruction 0 0x200), host := [.keyPress 5] })).map
    (fun t => (t.dt, t.key 5)) = some (4, false) := by decide
theorem test_fetch_X3 : (after (step { State.reset with pc := 0xFFF })).map (·.fault) =
    some (some (.addressOutOfRange .fetchPC 0xFFF none (some 0x1000))) := by decide
theorem test_fetch_B19 : (after (step { State.reset with pc := 0x10FE })).map (·.fault) =
    some (some (.addressOutOfRange .fetchPC 0x10FE none (some 0x10FE))) := by decide
theorem test_fetch_X4 : pcAfter 0x1200 { State.reset with pc := 0xFFE } = some 0x200 := by decide
theorem test_reset_X6 : (match State.resetWith (List.replicate 3585 0x12) with | .error r => some r | .ok _ => none) =
    some (.capacityViolation 3585) := by decide +kernel
theorem test_reset_X8 : (match State.resetWith [0x60, 0x05] with | .ok t => some (t.mem.getBytes 0x1FF 4, t.pc, t.mem.get 0x50) | .error _ => none) =
    some ([0, 0x60, 0x05, 0], 0x200, 0) := by decide
theorem test_reset_X7 : (after (step { State.reset with fault := some (.unrecognizedInstruction 0 0x200), host := [.reset [0x12, 0x00]] })).map
    (fun t => (t.fault, t.host, t.mem.get 0x200)) = some (none, [], 0x12) := by decide
/-- T-B22: an odd target, the word formed from the bytes found there. -/
theorem test_odd_fetch_B22 : (after (step { State.reset with pc := 0x203, mem := Memory.ofImage 0x200 [0x12, 0x03, 0x00, 0x6A, 0x05] })).map
    (fun t => (t.reg 10, t.pc)) = some (5, 0x205) := by decide
/-- R315: no Step for a budget of 1, one for a budget of 2. -/
theorem test_cycle : ((after (State.cycle { State.reset with dt := 9, kw := some 0 } 1)).map (·.dt),
    (after (State.cycle { State.reset with dt := 9, kw := some 0 } 2)).map (·.dt)) = (some 9, some 8) := by decide
/-- R275: the codes. -/
theorem test_codes : ((Fault.unrecognizedInstruction 0 0).code, (Fault.addressOutOfRange .keyIndex 0 none none).code, SubCause.keyIndex.code) = (1, 3, 6) := by decide

/-! ## Witnesses: for each statement with hypotheses, a state and operands that meet them all, at the boundaries of
its clauses -/

/-- At the highest address a word can be fetched from, `pc` = 0xFFE. -/
def topState : State := { State.reset with pc := 0xFFE, mem := [(0xFFE, 0x60), (0xFFF, 0x05)] }

/-- A state with a key-wait pending. -/
def waiting : State := { State.reset with kw := some 3, dt := 2 }

/-- A halted state. -/
def halted : State := { State.reset with fault := some (.unrecognizedInstruction 0 0x200) }

/-- A state about to run a word from 0x200. -/
def running (hi lo : Byte) : State := { State.reset with mem := Memory.ofImage 0x200 [hi, lo] }

theorem witness_DecodeAndEncodeAreInverse : decode 0x6005 = .ok (.loadImmediate 0 5) := by decide
theorem witness_DecoderFollowsOpcodeMap : Instr.ret.row ∈ opcodeTable ∧ 0x00EE &&& Instr.ret.row.mask = Instr.ret.row.pattern := by decide
theorem witness_StepRunsTheDecodedInstruction : topState.executing ∧ topState.pc.toNat + 1 ≤ 4095 ∧
    (0x6005 : Word).toNat = (topState.mem.get topState.pc.toNat).toNat * 256 + (topState.mem.get (topState.pc.toNat + 1)).toNat ∧
    decode 0x6005 = .ok (.loadImmediate 0 5) := by decide
theorem witness_PlacedWordIsRunNext : topState.mem.wf = true ∧ halted.mem.wf = true ∧ waiting.mem.wf = true := by decide
theorem witness_DelayTimerTicksFirstInEveryStep_set : ∃ t, (running 0xF0 0x15).stepsNext ∧ (running 0xF0 0x15).running ∧
    step (running 0xF0 0x15) = .next t ∧ (running 0xF0 0x15).nextInstr = some (.setDelayTimer 0) := ⟨_, .inl rfl, rfl, rfl, rfl⟩
theorem witness_DelayTimerTicksFirstInEveryStep_read : ∃ t, (running 0xF4 0x07).stepsNext ∧ (running 0xF4 0x07).running ∧
    step (running 0xF4 0x07) = .next t ∧ (running 0xF4 0x07).nextInstr = some (.readDelayTimer 4) := ⟨_, .inl rfl, rfl, rfl, rfl⟩
theorem witness_DelayTimerTicksFirstInEveryStep_other : ∃ t, waiting.stepsNext ∧ waiting.running ∧ step waiting = .next t ∧
    waiting.nextInstr = none := ⟨_, .inl rfl, rfl, rfl, rfl⟩
theorem witness_KeyWaitBlocksUntilKeyPress_step : waiting.stepsNext ∧ waiting.running ∧ waiting.kw = some 3 ∧
    State.stepsNext { waiting with host := [.step, .keyPress 1] } := by decide
theorem witness_KeyWaitBlocksUntilKeyPress_run : (∀ tr ∈ waiting.host.take 5, tr = .step) ∧
    (∀ tr ∈ ({ waiting with host := [.step, .step, .keyPress 1] } : State).host.take 2, tr = .step) ∧ waiting.running := by decide
theorem witness_KeyWaitBlocksUntilKeyPress_transaction : ∃ t, step { waiting with host := [.keyRelease 3] } = .next t ∧
    (∀ k, Transaction.keyRelease 3 ≠ .keyPress k) ∧ ∀ image, Transaction.keyRelease 3 ≠ .reset image :=
  ⟨_, rfl, (by intro k h; cases h), (by intro image h; cases h)⟩
theorem witness_KeyWaitBlocksUntilKeyPress_arm : (∀ tr ∈ (running 0xF3 0x0A).host.take 3, tr = .step) ∧ (running 0xF3 0x0A).executing ∧
    (running 0xF3 0x0A).nextInstr = some (.waitForKey 3) := by decide
theorem witness_FetchBeyondMemoryFaults : State.executing { State.reset with pc := 0xFFF } ∧ 0xFFF ≤ (0xFFF : Word).toNat ∧
    State.executing { State.reset with pc := 0x1000 } ∧ 0xFFF ≤ (0x1000 : Word).toNat := by decide
theorem witness_IllegalWordHaltsWithItsOpcode : (running 0x01 0xE0).executing ∧ (running 0x01 0xE0).pc.toNat + 1 ≤ 4095 ∧
    (0x01E0 : Word).toNat = ((running 0x01 0xE0).mem.get 0x200).toNat * 256 + ((running 0x01 0xE0).mem.get 0x201).toNat ∧
    decode 0x01E0 = .error (.unrecognized 0x01E0) := by decide
theorem witness_HaltedCoreNeverChanges : halted.fault ≠ none ∧
    ∀ image, Transaction.reset image ∉ ({ halted with host := [.step, .keyPress 1] } : State).host :=
  ⟨by decide, fun image h => by simp at h⟩
theorem witness_RandomByteMattersOnlyToLoadRandomMasked : (running 0x60 0x05).stepsNext ∧
    ∀ x kk, (running 0x60 0x05).nextInstr ≠ some (.loadRandomMasked x kk) :=
  ⟨.inl rfl, fun x kk h => by
    have e : (running 0x60 0x05).nextInstr = some (.loadImmediate 0 5) := rfl
    rw [e] at h
    exact nomatch h⟩
theorem witness_JumpToSelfIdles : (running 0x12 0x00).executing ∧ (running 0x12 0x00).nextInstr = some (.jump 0x200) ∧
    (running 0x12 0x00).pc.toNat = (0x200 : Imm12).toNat := by decide
theorem witness_CallPushesItsOwnAddress : ({ State.reset with sp := 15 } : State).sp.val < 16 ∧ ({ State.reset with sp := 16 } : State).sp.val = 16 := by decide
theorem witness_ReturnResumesAfterTheCall : ({ State.reset with sp := 16 } : State).sp.val = (15 : Fin 16).val + 1 ∧ State.reset.sp.val = 0 := by decide
theorem witness_ReturnUndoesCall : ∃ t, ({ State.reset with sp := 15 } : State).sp.val < 16 ∧
    exec (.call 0x206) { State.reset with sp := 15 } = .next t := ⟨_, by decide, rfl⟩
theorem witness_StoreBCDWritesThreeDigits : topState.mem.wf = true ∧ (0xFFD : Word).toNat + 2 ≤ 4095 := by decide
theorem witness_StoreRegistersWritesTheRange : topState.mem.wf = true ∧ (0xFF0 : Word).toNat + (0xF : RegIndex).toNat ≤ 4095 := by decide
theorem witness_LoadRegistersReadsTheRange : (0xFFF : Word).toNat + (0x0 : RegIndex).toNat ≤ 4095 := by decide
theorem witness_AccessBeyondMemoryFaultsBeforeWriting : (0xFFE : Word).toNat + 2 > 4095 ∧ (0xFF1 : Word).toNat + (0xF : RegIndex).toNat > 4095 ∧
    (1 : Nibble) ≠ 0 ∧ (0x1000 : Word).toNat + (1 : Nibble).toNat - 1 > 4095 := by decide
theorem witness_LoadAfterStoreRestoresRegisters : ∃ t, State.reset.mem.wf = true ∧
    ({ State.reset with I := 0xFF0 } : State).I.toNat + (0xF : RegIndex).toNat ≤ 4095 ∧
    exec (.storeRegisters 0xF) { State.reset with I := 0xFF0 } = .next t := ⟨_, by decide, by decide, rfl⟩
/-- `StoreBCD`, the fetch reading the last digit and the byte after it; `StoreRegisters(0)`, the fetch reading the byte
before and the one stored. -/
theorem witness_StoredBytesAreFetchedAtOnce_bcd : ∃ t, State.reset.mem.wf = true ∧
    exec (.storeBCD 0) { State.reset with I := 0xFFC } = .next t ∧ t.fault = none ∧
    ({ t with pc := 0xFFE } : State).pc.toNat + 1 ≤ 4095 ∧
    storedByte { State.reset with I := 0xFFC } (.storeBCD 0) 0xFFE = some 0 ∧
    storedByte { State.reset with I := 0xFFC } (.storeBCD 0) 0xFFF = none :=
  ⟨_, by decide, rfl, rfl, by decide, by decide, by decide⟩
theorem witness_StoredBytesAreFetchedAtOnce_registers : ∃ t, State.reset.mem.wf = true ∧
    exec (.storeRegisters 0) { State.reset with I := 0xFFF } = .next t ∧ t.fault = none ∧
    ({ t with pc := 0xFFE } : State).pc.toNat + 1 ≤ 4095 ∧
    storedByte { State.reset with I := 0xFFF } (.storeRegisters 0) 0xFFE = none ∧
    storedByte { State.reset with I := 0xFFF } (.storeRegisters 0) 0xFFF = some 0 :=
  ⟨_, by decide, rfl, rfl, by decide, by decide, by decide⟩
theorem witness_DrawXorsTheSpriteAndReportsCollision : (List.replicate 15 (0xFF : Byte)).length ≤ 15 := by decide
theorem witness_DrawingTwiceRestoresTheFramebuffer : (List.replicate 15 (0xFF : Byte)).length ≤ 15 ∧ ([] : List Byte).length ≤ 15 := by decide
theorem witness_DrawSpriteDrawsAndSetsVF : (0x0 : Nibble) = 0 ∧ (0xFF1 : Word).toNat + (0xF : Nibble).toNat - 1 ≤ 4095 := by decide
theorem witness_KeySkipsTestTheNamedKey : ((regs [(2, 15)]).reg 2).toNat = (0xF : KeyIndex).toNat ∧ ((regs [(2, 16)]).reg 2).toNat > 15 := by decide
theorem witness_KeyPressResolvesThePendingWait : ({ waiting with host := [.keyPress 15] } : State).running ∧
    ({ waiting with host := [.keyPress 15] } : State).host = .keyPress 15 :: [] ∧ waiting.kw = some 3 := by decide
theorem witness_KeyReleaseOnlyUnmarksItsKey : ({ waiting with host := [.keyRelease 0] } : State).running ∧
    ({ waiting with host := [.keyRelease 0] } : State).host = .keyRelease 0 :: [] := by decide
theorem witness_ResetPlacesTheImageOrRefuses : (List.replicate 3584 (0x12 : Byte)).length ≤ 3584 ∧ (List.replicate 3585 (0x12 : Byte)).length > 3584 := by
  rw [List.length_replicate, List.length_replicate]; omega
theorem witness_ResetLeavesNothingOfTheOldState : ({ halted with host := [.reset [0x12]] } : State).host = .reset [0x12] :: [] ∧
    [(0x12 : Byte)].length ≤ 3584 ∧ (List.replicate 3585 (0x12 : Byte)).length > 3584 := ⟨rfl, by decide, by rw [List.length_replicate]; omega⟩
theorem witness_CycleIssuesOneStepLess : topState.hostSteps := rfl
theorem witness_FaultsArePrecise : ∃ t f, State.reset.stepsNext ∧ State.reset.running ∧ step State.reset = .next t ∧ t.fault = some f :=
  ⟨_, _, .inl rfl, rfl, rfl, rfl⟩
theorem witness_FaultsArePrecise_listed : ∃ t f, State.stepsNext { State.reset with host := [.step, .keyPress 1] } ∧
    step { State.reset with host := [.step, .keyPress 1] } = .next t ∧ t.fault = some f := ⟨_, _, .inr rfl, rfl, rfl⟩
/-- For every statement about a `Step` that is due: one the host has listed. -/
theorem witness_listedStep : State.executing { topState with host := [.step, .keyPress 1] } := by decide
theorem witness_ReadsLeaveTheCoreAsItWas :
    ({ topState with dt := 9, host := [.readFramebuffer, .step] } : State).host = .readFramebuffer :: [.step] ∧
    ({ topState with dt := 9, host := [.readFault] } : State).host = .readFault :: [] ∧
    ({ topState with dt := 9 } : State).running ∧ ({ topState with dt := 9 } : State).kw = none := by decide
theorem witness_NothingButTheCoreAndItsInputsMatters : ∃ t,
    ({ topState with host := [.step, .keyPress 1] } : State).toCoreState = ({ topState with host := [.step] } : State).toCoreState ∧
    ({ topState with host := [.step, .keyPress 1] } : State).host.head? = ({ topState with host := [.step] } : State).host.head? ∧
    step { topState with host := [.step, .keyPress 1] } = .next t := ⟨_, rfl, rfl, rfl⟩
theorem witness_InstructionsRaiseOnlyTheirOwnFault : ∃ t f, State.reset.running ∧ exec .ret State.reset = .next t ∧ t.fault = some f :=
  ⟨_, _, rfl, rfl, rfl⟩
theorem witness_OnlyTwoInstructionsWriteMemory : ∃ t, step { running 0xF0 0x55 with V := (regs [(0, 7)]).V, I := 0x300 } = .next t ∧
    t.mem ≠ (running 0xF0 0x55).mem := ⟨_, rfl, by decide⟩
theorem witness_OnlyTwoInstructionsWriteTheFramebuffer : ∃ t,
    step { running 0x00 0xE0 with fb := Framebuffer.clear.setPixel 0 0 true } = .next t ∧ t.fb ≠ Framebuffer.clear.setPixel 0 0 true :=
  ⟨_, rfl, by decide⟩
theorem witness_InstructionsWriteOnlyTheirRegisters : ∃ t, exec (.loadRegisters 0) { State.reset with I := 0xFFF } = .next t := ⟨_, rfl⟩
theorem witness_ControlRegistersHaveTheirOwnWriters : ∃ t, exec (.loadIndex 0xFFF) State.reset = .next t ∧ t.I ≠ State.reset.I :=
  ⟨_, rfl, by decide⟩

/-- A state at the bounds of the invariant: `pc` = 0x10FE, a full stack of 0xFFE. -/
def boundState : State := { State.reset with pc := 0x10FE, sp := 16, stack := Vector.replicate 16 0xFFE }

theorem witness_EveryStepKeepsTheInvariant : boundState.Inv ∧ ∃ t, step boundState = .next t :=
  ⟨⟨by decide, by decide, by decide, fun h => absurd rfl h, fun _ h => nomatch h⟩, _, rfl⟩
theorem witness_PcAdvancesAsTabled : ∃ t, ({ boundState with pc := 0xFFE } : State).Inv ∧ ({ boundState with pc := 0xFFE } : State).running ∧
    (0xFFE : Word).toNat ≤ 0xFFE ∧ exec .ret { boundState with pc := 0xFFE } = .next t ∧ t.fault = none :=
  ⟨_, ⟨by decide, by decide, by decide, fun h => absurd rfl h, fun _ h => nomatch h⟩, rfl, by decide, rfl, rfl⟩
theorem witness_PcAdvancesAsTabled_fault : ∃ t, exec (.call 0) { boundState with pc := 0xFFE } = .next t ∧ t.fault ≠ none :=
  ⟨_, rfl, by decide⟩
theorem witness_ResetMeetsTheInvariant : ∃ t, State.resetWith [0x12, 0x00] = .ok t := ⟨_, rfl⟩
theorem witness_ReachableStatesStayInBounds : Reachable { State.reset with host := [.keyPress 3] } := .host _ .reset

end Sys2Proof.Tests
end

section
/-! The encoder and the decoder as inverses of each other, and the decoder against the opcode map (R95, R99). -/

namespace Sys2Proof

/-! ## Words under a row's mask: the fixed nibbles of each format (R92) -/

theorem fieldKK_and (a b : Word) : fieldKK (a &&& b) = fieldKK a &&& fieldKK b := BitVec.extractLsb'_and
theorem fieldNNN_and (a b : Word) : fieldNNN (a &&& b) = fieldNNN a &&& fieldNNN b := BitVec.extractLsb'_and

/-- Words with the same leading nibble and the same `nnn` are equal (format `A`). -/
theorem word_ext_A {a b : Word} (h0 : fieldN0 a = fieldN0 b) (hnnn : fieldNNN a = fieldNNN b) : a = b := by
  rw [word_eq_fieldsA a, word_eq_fieldsA b, h0, hnnn]

/-- Words with the same leading nibble, `x` and `kk` are equal (formats `XK` and `X`). -/
theorem word_ext_XK {a b : Word} (h0 : fieldN0 a = fieldN0 b) (hx : fieldX a = fieldX b)
    (hkk : fieldKK a = fieldKK b) : a = b := by
  rw [word_eq_fieldsXK a, word_eq_fieldsXK b, h0, hx, hkk]

theorem and_0xF000_of_fieldN0 {w p : Word} (hp : p &&& 0xF000 = p) (h0 : fieldN0 w = fieldN0 p) :
    w &&& 0xF000 = p := by
  rw [← hp]
  apply word_ext <;> simp [fieldN0_and, fieldX_and, fieldY_and, fieldN_and, h0]

theorem and_0xF00F_of_fields {w p : Word} (hp : p &&& 0xF00F = p) (h0 : fieldN0 w = fieldN0 p)
    (hn : fieldN w = fieldN p) : w &&& 0xF00F = p := by
  rw [← hp]
  apply word_ext <;> simp [fieldN0_and, fieldX_and, fieldY_and, fieldN_and, h0, hn]

theorem and_0xF0FF_of_fields {w p : Word} (hp : p &&& 0xF0FF = p) (h0 : fieldN0 w = fieldN0 p)
    (hkk : fieldKK w = fieldKK p) : w &&& 0xF0FF = p := by
  rw [← hp]
  apply word_ext_XK <;> simp [fieldN0_and, fieldX_and, fieldKK_and, h0, hkk]

/-! ## Nothing is lost under a field's full mask -/

@[simp] theorem nibble_and_0xF (n : Nibble) : n &&& 0xF#4 = n := BitVec.and_allOnes
@[simp] theorem byte_and_0xFF (b : Byte) : b &&& 0xFF#8 = b := BitVec.and_allOnes
@[simp] theorem imm12_and_0xFFF (a : Imm12) : a &&& 0xFFF#12 = a := BitVec.and_allOnes

/-! ## Fields put back at their positions are the word outside the mask -/

theorem placeA_fieldNNN (w : Word) : placeA (fieldNNN w) = w &&& ~~~0xF000#16 := by
  apply word_ext_A <;> simp [fieldN0_and, fieldNNN_and]

theorem placeXK_fields (w : Word) : placeXK (fieldX w) (fieldKK w) = w &&& ~~~0xF000#16 := by
  apply word_ext_XK <;> simp [fieldN0_and, fieldX_and, fieldKK_and]

theorem placeXYN_fields (w : Word) : placeXYN (fieldX w) (fieldY w) (fieldN w) = w &&& ~~~0xF000#16 := by
  apply word_ext <;> simp [fieldN0_and, fieldX_and, fieldY_and, fieldN_and]

theorem placeXY_fields (w : Word) : placeXYN (fieldX w) (fieldY w) 0 = w &&& ~~~0xF00F#16 := by
  apply word_ext <;> simp [fieldN0_and, fieldX_and, fieldY_and, fieldN_and]

theorem placeX_fieldX (w : Word) : placeX (fieldX w) = w &&& ~~~0xF0FF#16 := by
  apply word_ext_XK <;> simp [fieldN0_and, fieldX_and, fieldKK_and]

/-! ## An instruction with a word's own fields as operands -/

/-- The instruction of the same row whose operands are the fields of `w` (R91, R92). -/
def Instr.withFields (i : Instr) (w : Word) : Instr :=
  match i with
  | .clearDisplay => .clearDisplay
  | .ret => .ret
  | .jump _ => .jump (fieldNNN w)
  | .call _ => .call (fieldNNN w)
  | .skipIfEqualsImmediate _ _ => .skipIfEqualsImmediate (fieldX w) (fieldKK w)
  | .skipIfNotEqualsImmediate _ _ => .skipIfNotEqualsImmediate (fieldX w) (fieldKK w)
  | .skipIfRegistersEqual _ _ => .skipIfRegistersEqual (fieldX w) (fieldY w)
  | .loadImmediate _ _ => .loadImmediate (fieldX w) (fieldKK w)
  | .addImmediate _ _ => .addImmediate (fieldX w) (fieldKK w)
  | .move _ _ => .move (fieldX w) (fieldY w)
  | .or _ _ => .or (fieldX w) (fieldY w)
  | .and _ _ => .and (fieldX w) (fieldY w)
  | .xor _ _ => .xor (fieldX w) (fieldY w)
  | .add _ _ => .add (fieldX w) (fieldY w)
  | .sub _ _ => .sub (fieldX w) (fieldY w)
  | .shiftRight _ _ => .shiftRight (fieldX w) (fieldY w)
  | .reverseSub _ _ => .reverseSub (fieldX w) (fieldY w)
  | .shiftLeft _ _ => .shiftLeft (fieldX w) (fieldY w)
  | .skipIfRegistersNotEqual _ _ => .skipIfRegistersNotEqual (fieldX w) (fieldY w)
  | .loadIndex _ => .loadIndex (fieldNNN w)
  | .jumpPlusRegister0 _ => .jumpPlusRegister0 (fieldNNN w)
  | .loadRandomMasked _ _ => .loadRandomMasked (fieldX w) (fieldKK w)
  | .drawSprite _ _ _ => .drawSprite (fieldX w) (fieldY w) (fieldN w)
  | .skipIfKeyPressed _ => .skipIfKeyPressed (fieldX w)
  | .skipIfKeyNotPressed _ => .skipIfKeyNotPressed (fieldX w)
  | .readDelayTimer _ => .readDelayTimer (fieldX w)
  | .waitForKey _ => .waitForKey (fieldX w)
  | .setDelayTimer _ => .setDelayTimer (fieldX w)
  | .setSoundTimer _ => .setSoundTimer (fieldX w)
  | .addToIndex _ => .addToIndex (fieldX w)
  | .loadFontGlyphAddress _ => .loadFontGlyphAddress (fieldX w)
  | .storeBCD _ => .storeBCD (fieldX w)
  | .storeRegisters _ => .storeRegisters (fieldX w)
  | .loadRegisters _ => .loadRegisters (fieldX w)

@[simp] theorem Instr.row_withFields (i : Instr) (w : Word) : (i.withFields w).row = i.row := by
  cases i <;> rfl

theorem Instr.operandBits_withFields (i : Instr) (w : Word) :
    (i.withFields w).operandBits = w &&& ~~~i.row.mask := by
  cases i
  case clearDisplay | ret => simp [withFields, operandBits, row]
  case drawSprite => exact placeXYN_fields w
  case jump | call | loadIndex | jumpPlusRegister0 => exact placeA_fieldNNN w
  case skipIfEqualsImmediate | skipIfNotEqualsImmediate | loadImmediate | addImmediate | loadRandomMasked =>
    exact placeXK_fields w
  case skipIfRegistersEqual | skipIfRegistersNotEqual | move | or | and | xor | add | sub | shiftRight | reverseSub
      | shiftLeft =>
    exact placeXY_fields w
  all_goals exact placeX_fieldX w

/-- A word that matches a row is the encoding of that row's instruction with the word's own fields as operands. -/
theorem encode_withFields {i : Instr} {w : Word} (h : w &&& i.row.mask = i.row.pattern) :
    encode (i.withFields w) = w := by
  rw [encode, Instr.row_withFields, Instr.operandBits_withFields, ← h,
    ← BitVec.and_or_distrib_left, BitVec.or_not_self, BitVec.and_allOnes]

/-! ## From the instruction to the word and back: the fields of an encoding are the row's fixed bits and the operands -/

theorem decode_encode (i : Instr) : decode (encode i) = .ok i := by
  rw [encode]
  cases i
  case clearDisplay | ret => decide
  case move | or | and | xor | add | sub | shiftRight | reverseSub | shiftLeft =>
    simp [Instr.row, Instr.operandBits, decode, decodeAlu, fieldN0_or, fieldX_or, fieldY_or, fieldN_or]
  case skipIfKeyPressed | skipIfKeyNotPressed =>
    simp [Instr.row, Instr.operandBits, decode, decodeKey, fieldN0_or, fieldX_or, fieldKK_or]
  case readDelayTimer | waitForKey | setDelayTimer | setSoundTimer | addToIndex | loadFontGlyphAddress | storeBCD
      | storeRegisters | loadRegisters =>
    simp [Instr.row, Instr.operandBits, decode, decodeMisc, fieldN0_or, fieldX_or, fieldKK_or]
  case jump | call | loadIndex | jumpPlusRegister0 =>
    simp [Instr.row, Instr.operandBits, decode, fieldN0_or, fieldNNN_or]
  case skipIfEqualsImmediate | skipIfNotEqualsImmediate | loadImmediate | addImmediate | loadRandomMasked =>
    simp [Instr.row, Instr.operandBits, decode, fieldN0_or, fieldX_or, fieldKK_or]
  case skipIfRegistersEqual | skipIfRegistersNotEqual | drawSprite =>
    simp [Instr.row, Instr.operandBits, decode, fieldN0_or, fieldX_or, fieldY_or, fieldN_or]

/-! ## From the word to the instruction: what a successful decoding says of the word -/

/-- What decoding to an instruction says of the word: it matches the instruction's row, and the operands are its
fields (R91, R95). -/
def Instr.ReadFrom (i : Instr) (w : Word) : Prop :=
  w &&& i.row.mask = i.row.pattern ∧ i.withFields w = i

theorem decodeAlu_readFrom {w : Word} {i : Instr} (h0 : fieldN0 w = 0x8) (h : decodeAlu w = .ok i) :
    i.ReadFrom w := by
  unfold decodeAlu at h
  split at h
  case h_10 => cases h
  all_goals
    cases h
    rename_i hn
    exact ⟨by rw [Instr.row]; exact and_0xF00F_of_fields rfl h0 hn, rfl⟩

theorem decodeKey_readFrom {w : Word} {i : Instr} (h0 : fieldN0 w = 0xE) (h : decodeKey w = .ok i) :
    i.ReadFrom w := by
  unfold decodeKey at h
  split at h
  case h_3 => cases h
  all_goals
    cases h
    rename_i hkk
    exact ⟨by rw [Instr.row]; exact and_0xF0FF_of_fields rfl h0 hkk, rfl⟩

theorem decodeMisc_readFrom {w : Word} {i : Instr} (h0 : fieldN0 w = 0xF) (h : decodeMisc w = .ok i) :
    i.ReadFrom w := by
  unfold decodeMisc at h
  split at h
  case h_10 => cases h
  all_goals
    cases h
    rename_i hkk
    exact ⟨by rw [Instr.row]; exact and_0xF0FF_of_fields rfl h0 hkk, rfl⟩

/-- The cases follow the leading nibble: 0 (two whole words), 5 and 9 (bits 3..0 must be 0), the three dispatching
families 8, E and F, and the families whose other bits are all operands. -/
theorem decode_readFrom {w : Word} {i : Instr} (h : decode w = .ok i) : i.ReadFrom w := by
  unfold decode at h
  split at h <;> rename_i h0
  case h_1 =>
    split_ifs at h with hw hw <;> cases h <;> subst hw <;> exact ⟨by decide, rfl⟩
  case h_6 | h_10 =>
    split at h <;> cases h
    rename_i hn
    exact ⟨by rw [Instr.row]; exact and_0xF00F_of_fields rfl h0 hn, rfl⟩
  case h_9 => exact decodeAlu_readFrom h0 h
  case h_15 => exact decodeKey_readFrom h0 h
  case h_16 =>
    have hF : fieldN0 w = 0xF := by simp only [imp_false] at *; bv_omega
    exact decodeMisc_readFrom hF h
  all_goals
    cases h
    exact ⟨by rw [Instr.row]; exact and_0xF000_of_fieldN0 rfl h0, rfl⟩

theorem encode_of_decode {w : Word} {i : Instr} (h : decode w = .ok i) : encode i = w := by
  obtain ⟨hmatch, hfields⟩ := decode_readFrom h
  rw [← hfields, encode_withFields hmatch]

/-! ## The opcode map (R95) -/

theorem decode_of_matches {i : Instr} {w : Word} (h : w &&& i.row.mask = i.row.pattern) :
    decode w = .ok (i.withFields w) := by
  rw [← decode_encode (i.withFields w), encode_withFields h]

theorem matches_iff_decode (r : Instr) (w : Word) :
    w &&& r.row.mask = r.row.pattern ↔ ∃ i, decode w = .ok i ∧ i.row = r.row := by
  constructor
  · intro h
    exact ⟨r.withFields w, decode_of_matches h, r.row_withFields w⟩
  · rintro ⟨i, hd, hrow⟩
    obtain ⟨hmatch, -⟩ := decode_readFrom hd
    rwa [← hrow]

/-- The decoder is a function, so one word cannot match two rows. -/
theorem row_eq_of_matches {w : Word} {a b : Instr} (ha : w &&& a.row.mask = a.row.pattern)
    (hb : w &&& b.row.mask = b.row.pattern) : a.row = b.row := by
  have heq : a.withFields w = b.withFields w :=
    Except.ok.inj ((decode_of_matches ha).symm.trans (decode_of_matches hb))
  rw [← a.row_withFields w, heq, b.row_withFields w]

/-! ## The obligations -/

/-- Settles O2 (R99): the fields of an encoding are the operands, and a word that decodes is its row's match bits with
its own fields put back. -/
theorem decodeAndEncodeAreInverse : Obligations.DecodeAndEncodeAreInverse :=
  ⟨fun _ => rfl, fun _ _ => encode_of_decode, decode_encode⟩

/-- Settles O3 (R95): a word that matches a row decodes to that row's instruction, so two rows cannot share a word. -/
theorem decoderFollowsOpcodeMap : Obligations.DecoderFollowsOpcodeMap := by
  refine ⟨rfl, fun w row hrow => ?_, fun w a b ha hb hwa hwb => ?_⟩
  · obtain ⟨r, -, rfl⟩ := List.mem_map.mp hrow
    exact matches_iff_decode r w
  · obtain ⟨a, -, rfl⟩ := List.mem_map.mp ha
    obtain ⟨b, -, rfl⟩ := List.mem_map.mp hb
    exact row_eq_of_matches hwa hwb

end Sys2Proof
end

section
/-! Control transfer (41_control_transfer.md): the jump and the register skips, which write `pc` alone. -/

namespace Sys2Proof.Machine

/-! ## The meaning each instruction is dispatched to -/

theorem exec_jump (nnn : Imm12) (s : State) : exec (.jump nnn) s = .next { s with pc := zext12 nnn } := rfl

theorem exec_skipIfEqualsImmediate (x : RegIndex) (kk : Byte) (s : State) :
    exec (.skipIfEqualsImmediate x kk) s = .next (s.skipIf (s.reg x == kk)) := rfl

theorem exec_skipIfNotEqualsImmediate (x : RegIndex) (kk : Byte) (s : State) :
    exec (.skipIfNotEqualsImmediate x kk) s = .next (s.skipIf (s.reg x != kk)) := rfl

theorem exec_skipIfRegistersEqual (x y : RegIndex) (s : State) :
    exec (.skipIfRegistersEqual x y) s = .next (s.skipIf (s.reg x == s.reg y)) := rfl

theorem exec_skipIfRegistersNotEqual (x y : RegIndex) (s : State) :
    exec (.skipIfRegistersNotEqual x y) s = .next (s.skipIf (s.reg x != s.reg y)) := rfl

/-! ## Writing `pc` keeps everything else -/

theorem onlyPcChanges_withPc (s : State) (a : Word) : onlyPcChanges s { s with pc := a } :=
  ⟨fun _ _ => rfl, rfl, fun _ => rfl, ⟨rfl, rfl⟩, ⟨rfl, rfl⟩, rfl, rfl, rfl, rfl, rfl, rfl⟩

theorem onlyPcChanges_skipIf (s : State) (p : Bool) : onlyPcChanges s (s.skipIf p) := onlyPcChanges_withPc s _

/-! ## A skip advances by its predicate -/

/-- The test a skip computes, read as the proposition it decides. -/
theorem State.skipIf_pc_of_iff (s : State) {p : Bool} {P : Prop} [Decidable P] (hp : p = true ↔ P) :
    (s.skipIf p).pc = s.pc + (if P then 4 else 2) := by
  by_cases h : P
  · simp [hp.mpr h, h]
  · simp [mt hp.mp h, h]

/-- What every register skip does, once its test is known to decide its predicate. -/
theorem exists_next_of_skipIf {i : Instr} {s : State} {p : Bool} {P : Prop} [Decidable P]
    (hexec : exec i s = .next (s.skipIf p)) (hp : p = true ↔ P) :
    ∃ t, exec i s = .next t ∧ t.pc = s.pc + (if P then 4 else 2) ∧ onlyPcChanges s t :=
  ⟨s.skipIf p, hexec, s.skipIf_pc_of_iff hp, onlyPcChanges_skipIf s p⟩

/-! ## The obligations -/

/-- Settles O15 (R151): the target is the 12-bit immediate zero-extended, so its value is kept exactly. -/
theorem jumpSetsPcToTarget : Obligations.JumpSetsPcToTarget := fun nnn s =>
  ⟨_, exec_jump nnn s, zext12_toNat nnn, onlyPcChanges_withPc s _⟩

/-- Settles O20 (R153 to R156): the four instructions differ only in the test they skip on, equality or its negation,
on an immediate or on a second register. -/
theorem registerSkipsAdvanceByPredicate : Obligations.RegisterSkipsAdvanceByPredicate := by
  refine ⟨fun x kk s => ?_, fun x kk s => ?_, fun x y s => ?_, fun x y s => ?_⟩
  · exact exists_next_of_skipIf (exec_skipIfEqualsImmediate x kk s) beq_iff_eq
  · exact exists_next_of_skipIf (exec_skipIfNotEqualsImmediate x kk s) bne_iff_ne
  · exact exists_next_of_skipIf (exec_skipIfRegistersEqual x y s) beq_iff_eq
  · exact exists_next_of_skipIf (exec_skipIfRegistersNotEqual x y s) bne_iff_ne

end Sys2Proof.Machine
end

section
/-! Register and ALU instructions (42_alu.md): the immediate forms, which write one register and `pc`. -/

namespace Sys2Proof.Machine

/-! ## The meaning each instruction is dispatched to -/

theorem exec_loadImmediate (x : RegIndex) (kk : Byte) (s : State) :
    exec (.loadImmediate x kk) s = .next ((s.setReg x kk).advance 2) := rfl

theorem exec_addImmediate (x : RegIndex) (kk : Byte) (s : State) :
    exec (.addImmediate x kk) s = .next ((s.setReg x (s.reg x + kk)).advance 2) := rfl

/-! ## Writing one register and advancing keeps everything else -/

theorem onlyRegsChange_setReg_advance (s : State) (x : RegIndex) (b : Byte) (n : Nat) :
    onlyRegsChange (· = x) s ((s.setReg x b).advance n) :=
  ⟨fun _ hne => s.reg_setReg_of_ne b hne, rfl, fun _ => rfl, ⟨rfl, rfl⟩, ⟨rfl, rfl⟩, rfl, rfl, rfl, rfl, rfl, rfl⟩

/-- What an instruction does that stores one byte in `V[x]` and advances by 2. -/
theorem exists_next_of_setReg_advance {i : Instr} {s : State} {x : RegIndex} {b : Byte}
    (hexec : exec i s = .next ((s.setReg x b).advance 2)) :
    ∃ t, exec i s = .next t ∧ t.reg x = b ∧ t.pc = s.pc + 2 ∧ onlyRegsChange (· = x) s t :=
  ⟨_, hexec, s.reg_setReg_self x b, rfl, onlyRegsChange_setReg_advance s x b 2⟩

/-! ## The obligation -/

/-- Settles O21 (R171, R172): both forms store one byte and differ only in which; the byte `AddImmediate` stores is an
8-bit sum, whose value is the sum of the values modulo 256. -/
theorem immediateFormsWriteOneRegister : Obligations.ImmediateFormsWriteOneRegister := by
  refine ⟨fun x kk s => exists_next_of_setReg_advance (exec_loadImmediate x kk s), fun x kk s => ?_⟩
  obtain ⟨t, hexec, hreg, hrest⟩ := exists_next_of_setReg_advance (exec_addImmediate x kk s)
  exact ⟨t, hexec, hreg ▸ BitVec.toNat_add (s.reg x) kk, hrest⟩

end Sys2Proof.Machine
end

section
/-! Index register and memory (43_index_memory.md): the two loads of `I`, which write `I` and `pc` alone. -/

namespace Sys2Proof.Machine

/-! ## The meaning each instruction is dispatched to -/

theorem exec_loadIndex (nnn : Imm12) (s : State) :
    exec (.loadIndex nnn) s = .next (State.advance { s with I := zext12 nnn } 2) := rfl

theorem exec_loadFontGlyphAddress (x : RegIndex) (s : State) :
    exec (.loadFontGlyphAddress x) s = .next (State.advance { s with I := glyphAddr (s.reg x) } 2) := rfl

/-! ## Writing `I` and advancing keeps everything else -/

theorem onlyIndexChanges_withI_advance (s : State) (a : Word) (n : Nat) :
    onlyIndexChanges s (State.advance { s with I := a } n) :=
  ⟨fun _ => rfl, fun _ => rfl, ⟨rfl, rfl⟩, ⟨rfl, rfl⟩, rfl, rfl, rfl, rfl, rfl, rfl⟩

/-- What an instruction does that puts one word in `I` and advances by 2. -/
theorem exists_next_of_withI_advance {i : Instr} {s : State} {a : Word}
    (hexec : exec i s = .next (State.advance { s with I := a } 2)) :
    ∃ t, exec i s = .next t ∧ t.I = a ∧ t.pc = s.pc + 2 ∧ onlyIndexChanges s t :=
  ⟨_, hexec, rfl, rfl, onlyIndexChanges_withI_advance s a 2⟩

/-! ## The obligation -/

/-- Settles O27 (R200, R202): both loads put one word in `I` and differ only in which, the zero-extended immediate or
the address of the glyph; the value of each word is exact. -/
theorem indexLoadsSetI : Obligations.IndexLoadsSetI := by
  refine ⟨fun nnn s => ?_, fun x s => ?_⟩
  · obtain ⟨t, hexec, hI, hrest⟩ := exists_next_of_withI_advance (exec_loadIndex nnn s)
    exact ⟨t, hexec, hI ▸ zext12_toNat nnn, hrest⟩
  · obtain ⟨t, hexec, hI, hrest⟩ := exists_next_of_withI_advance (exec_loadFontGlyphAddress x s)
    exact ⟨t, hexec, hI ▸ glyphAddr_toNat (s.reg x), hrest⟩

end Sys2Proof.Machine
end

section
/-! Display (44_display.md): what `draw` does to the pixels, and `ClearDisplay`. -/

namespace Sys2Proof.Machine

/-! ## XORing a mask into a drawing (R221) -/

/-- `d'` is `d` with the mask `m` XORed into its pixels, and collides where `d` did or where a lit pixel met the mask. -/
structure Drawing.Xored (d : Drawing) (m : Fin 32 → Fin 64 → Bool) (d' : Drawing) : Prop where
  pixel : ∀ row col, d'.1.pixel row col = (d.1.pixel row col ^^ m row col)
  hit : d'.2 = true ↔ d.2 = true ∨ ∃ row col, d.1.pixel row col = true ∧ m row col = true

theorem Drawing.Xored.refl_of_mask_false (d : Drawing) {m : Fin 32 → Fin 64 → Bool}
    (hm : ∀ row col, m row col = false) : d.Xored m d :=
  ⟨by simp [hm], by simp [hm]⟩

/-- Two masks XORed in one after the other amount to their union when they share no pixel: a pixel of the second mask
is then as lit as at the start. -/
theorem Drawing.Xored.trans_of_disjoint {d d' d'' : Drawing} {m m₁ m₂ : Fin 32 → Fin 64 → Bool}
    (h₁ : d.Xored m₁ d') (h₂ : d'.Xored m₂ d'') (hdisj : ∀ row col, m₂ row col = true → m₁ row col = false)
    (hunion : ∀ row col, m row col = (m₁ row col || m₂ row col)) : d.Xored m d'' where
  pixel row col := by
    rw [h₂.pixel, h₁.pixel, hunion]
    cases h : m₂ row col
    · simp
    · simp [hdisj row col h]
  hit := by
    have hkept : ∀ row col, d'.1.pixel row col = true ∧ m₂ row col = true ↔
        d.1.pixel row col = true ∧ m₂ row col = true := fun row col =>
      and_congr_left fun h => by rw [h₁.pixel, hdisj row col h, Bool.xor_false]
    simp only [h₂.hit, h₁.hit, hkept, hunion, Bool.or_eq_true, and_or_left, exists_or, or_assoc]

/-- Where only a mask is XORed in, a pixel met by it while lit is one that went from lit to unlit. -/
theorem Drawing.Xored.hit_iff_unlit {d d' : Drawing} {m : Fin 32 → Fin 64 → Bool} (h : d.Xored m d')
    (hstart : d.2 = false) :
    d'.2 = true ↔ ∃ row col, d.1.pixel row col = true ∧ d'.1.pixel row col = false := by
  have hunlit : ∀ row col, d.1.pixel row col = true ∧ d'.1.pixel row col = false ↔
      d.1.pixel row col = true ∧ m row col = true := fun row col =>
    and_congr_right fun hlit => by rw [h.pixel, hlit, Bool.true_xor, Bool.not_eq_false']
  simp only [h.hit, hunlit, hstart, Bool.false_eq_true, false_or]

/-! ## A pixel's offsets from the sprite's origin, modulo the grid (R221) -/

/-- How many rows below the origin row `y` the row lies, wrapping. -/
def rowOffset (y : Byte) (row : Fin 32) : Nat := (row.val + 256 - y.toNat) % 32

/-- How many columns right of the origin column `x` the column lies, wrapping. -/
def colOffset (x : Byte) (col : Fin 64) : Nat := (col.val + 256 - x.toNat) % 64

theorem spriteBit_eq_offsets (x y : Byte) (bytes : List Byte) (row : Fin 32) (col : Fin 64) :
    spriteBit x y bytes row col =
      (decide (colOffset x col < 8) && (bytes.getD (rowOffset y row) 0).getLsbD (7 - colOffset x col)) := rfl

theorem eq_wrappedRow_iff (y : Byte) {r : Nat} (hr : r < 32) (row : Fin 32) :
    row = Fin.ofNat 32 (y.toNat + r) ↔ rowOffset y row = r := by
  have := y.isLt
  rw [Fin.ext_iff, Fin.val_ofNat, rowOffset]
  omega

theorem eq_wrappedCol_iff (x : Byte) {c : Nat} (hc : c < 64) (col : Fin 64) :
    col = Fin.ofNat 64 (x.toNat + c) ↔ colOffset x col = c := by
  have := x.isLt
  rw [Fin.ext_iff, Fin.val_ofNat, colOffset]
  omega

/-! ## The mask of each loop of `draw` -/

/-- The mask of one plotted pixel. -/
def pixelMask (row : Fin 32) (col : Fin 64) (bit : Bool) (row' : Fin 32) (col' : Fin 64) : Bool :=
  decide (row' = row ∧ col' = col) && bit

/-- The mask of the first `c` pixels of a sprite row. -/
def bitsMask (x : Byte) (row : Fin 32) (b : Byte) (c : Nat) (row' : Fin 32) (col : Fin 64) : Bool :=
  decide (row' = row ∧ colOffset x col < c) && b.getLsbD (7 - colOffset x col)

/-- The mask of the sprite rows from row offset `r` on. -/
def rowsMask (x y : Byte) (r : Nat) (bytes : List Byte) (row : Fin 32) (col : Fin 64) : Bool :=
  decide (r ≤ rowOffset y row ∧ colOffset x col < 8) &&
    (bytes.getD (rowOffset y row - r) 0).getLsbD (7 - colOffset x col)

theorem rowsMask_zero (x y : Byte) (bytes : List Byte) (row : Fin 32) (col : Fin 64) :
    rowsMask x y 0 bytes row col = spriteBit x y bytes row col := by
  simp [rowsMask, spriteBit_eq_offsets]

theorem pixelMask_wrappedCol (x : Byte) {c : Nat} (hc : c < 64) (row row' : Fin 32) (col : Fin 64) (bit : Bool) :
    pixelMask row (Fin.ofNat 64 (x.toNat + c)) bit row' col = (decide (row' = row ∧ colOffset x col = c) && bit) := by
  simp only [pixelMask, eq_wrappedCol_iff x hc]

theorem bitsMask_wrappedRow (x y : Byte) {r : Nat} (hr : r < 32) (b : Byte) (c : Nat) (row : Fin 32) (col : Fin 64) :
    bitsMask x (Fin.ofNat 32 (y.toNat + r)) b c row col =
      (decide (rowOffset y row = r ∧ colOffset x col < c) && b.getLsbD (7 - colOffset x col)) := by
  simp only [bitsMask, eq_wrappedRow_iff y hr]

theorem bitsMask_succ (x : Byte) {c : Nat} (hc : c < 64) (row row' : Fin 32) (b : Byte) (col : Fin 64) :
    bitsMask x row b (c + 1) row' col =
      (bitsMask x row b c row' col ||
        pixelMask row (Fin.ofNat 64 (x.toNat + c)) (b.getLsbD (7 - c)) row' col) := by
  rw [pixelMask_wrappedCol x hc]
  by_cases h : colOffset x col = c
  · simp [bitsMask, h]
  · have hlt : colOffset x col < c + 1 ↔ colOffset x col < c := by omega
    simp [bitsMask, h, hlt]

theorem rowsMask_cons (x y : Byte) {r : Nat} (hr : r < 32) (b : Byte) (bs : List Byte) (row : Fin 32) (col : Fin 64) :
    rowsMask x y r (b :: bs) row col =
      (bitsMask x (Fin.ofNat 32 (y.toNat + r)) b 8 row col || rowsMask x y (r + 1) bs row col) := by
  rw [bitsMask_wrappedRow x y hr]
  rcases Nat.lt_trichotomy (rowOffset y row) r with h | h | h
  · simp [rowsMask, h.ne, h.not_ge, show ¬ r + 1 ≤ rowOffset y row by omega]
  · simp [rowsMask, h]
  · have hnext : rowOffset y row - r = rowOffset y row - (r + 1) + 1 := by omega
    simp [rowsMask, h.ne', h.le, Nat.succ_le_of_lt h, hnext]

/-! ## What each loop of `draw` does -/

theorem Drawing.xored_plot (d : Drawing) (row : Fin 32) (col : Fin 64) (bit : Bool) :
    d.Xored (pixelMask row col bit) (d.plot row col bit) where
  pixel row' col' := by
    rw [Drawing.pixel_plot, pixelMask]
    by_cases h : row' = row ∧ col' = col
    · simp [h]
    · simp [h]
  hit := by
    simp [Drawing.hit_plot, pixelMask, and_assoc, and_left_comm]

/-- The pixel plotted at column offset `c` is not among the first `c` ones, since a row is 64 wide. -/
theorem Drawing.xored_plotBits (d : Drawing) (x : Byte) (row : Fin 32) (b : Byte) :
    ∀ {c : Nat}, c ≤ 64 → d.Xored (bitsMask x row b c) (d.plotBits x row b c)
  | 0, _ => .refl_of_mask_false d (by simp [bitsMask])
  | c + 1, hc => by
    refine (d.xored_plotBits x row b (Nat.le_of_succ_le hc)).trans_of_disjoint (xored_plot _ _ _ _) ?_
      (bitsMask_succ x hc row · b ·)
    intro row' col h
    rw [pixelMask_wrappedCol x hc, Bool.and_eq_true, decide_eq_true_eq] at h
    obtain ⟨⟨-, hcol⟩, -⟩ := h
    simp [bitsMask, hcol]

/-- The row drawn at row offset `r` is none of those after it, since the sprite fits in the 32 rows. -/
theorem Drawing.xored_plotRows (x y : Byte) (bytes : List Byte) : ∀ (d : Drawing) {r : Nat}, r + bytes.length ≤ 32 →
    d.Xored (rowsMask x y r bytes) (plotRows x y d r bytes) := by
  induction bytes with
  | nil => exact fun d r _ => .refl_of_mask_false d (by simp [rowsMask])
  | cons b bs ih =>
    intro d r hlen
    rw [List.length_cons] at hlen
    have hr : r < 32 := by omega
    refine (d.xored_plotBits x _ b (show 8 ≤ 64 by omega)).trans_of_disjoint (ih _ (r := r + 1) (by omega)) ?_
      (rowsMask_cons x y hr b bs)
    intro row col h
    rw [rowsMask, Bool.and_eq_true, decide_eq_true_eq] at h
    obtain ⟨⟨hlater, -⟩, -⟩ := h
    rw [bitsMask_wrappedRow x y hr]
    simp [show rowOffset y row ≠ r by omega]

/-- What `draw` does (R221): the sprite's bits are the mask. -/
theorem Framebuffer.xored_draw (fb : Framebuffer) (x y : Byte) {bytes : List Byte} (hlen : bytes.length ≤ 32) :
    Drawing.Xored (fb, false) (spriteBit x y bytes) (fb.draw x y bytes) := by
  have hmask : rowsMask x y 0 bytes = spriteBit x y bytes := funext₂ (rowsMask_zero x y bytes)
  exact hmask ▸ Drawing.xored_plotRows x y bytes (fb, false) (by omega)

/-! ## The meaning `ClearDisplay` is dispatched to -/

theorem exec_clearDisplay (s : State) :
    exec .clearDisplay s = .next (State.advance { s with fb := Framebuffer.clear } 2) := rfl

/-! ## The obligations -/

/-- Settles O36 (R221): the loops of `draw` plot pixels that are all different, so together they XOR the sprite in as
one mask. -/
theorem drawXorsTheSpriteAndReportsCollision : Obligations.DrawXorsTheSpriteAndReportsCollision := by
  intro fb x y bytes hlen
  have hdraw := fb.xored_draw x y (bytes := bytes) (by omega)
  exact ⟨hdraw.pixel, hdraw.hit_iff_unlit rfl⟩

/-- Settles O35 (R220, R223): beside the framebuffer only `pc` is written. -/
theorem clearDisplayPutsOutEveryPixel : Obligations.ClearDisplayPutsOutEveryPixel := fun s =>
  ⟨_, exec_clearDisplay s, Framebuffer.pixel_clear, rfl, onlyPcChanges_withPc s _⟩

end Sys2Proof.Machine
end

section
/-! The meaning of each instruction as one equation, or one equation per way it can go, for the instructions whose
equation does not stand above. -/

namespace Sys2Proof.Machine

/-! ## The frame of a write to registers and `pc` -/

/-- Registers in `W` exchanged, `pc` moved, and everything else kept. -/
theorem onlyRegsChange_withV {W : RegIndex → Prop} (s : State) {V : Vector Byte 16} (p : Word)
    (hV : sameRegsBut W s { s with V := V }) : onlyRegsChange W s { s with V := V, pc := p } :=
  ⟨hV, rfl, fun _ => rfl, ⟨rfl, rfl⟩, ⟨rfl, rfl⟩, rfl, rfl, rfl, rfl, rfl, rfl⟩

/-! ## Control transfer (41_control_transfer.md) -/

theorem exec_jumpPlusRegister0 (nnn : Imm12) (s : State) :
    exec (.jumpPlusRegister0 nnn) s = .next { s with pc := zext12 nnn + zext8 (s.reg 0) } := rfl

/-- The sum of a 12-bit and an 8-bit value fits in 16 bits (R157). -/
theorem jumpTarget_toNat (nnn : Imm12) (b : Byte) : (zext12 nnn + zext8 b).toNat = nnn.toNat + b.toNat := by
  have := nnn.isLt
  have := b.isLt
  rw [BitVec.toNat_add, zext12_toNat, zext8_toNat]
  omega

theorem exec_call_of_lt (nnn : Imm12) {s : State} (h : s.sp.val < 16) :
    exec (.call nnn) s = .next { s with
      stack := s.stack.set s.sp.val s.pc h, sp := ⟨s.sp.val + 1, Nat.succ_lt_succ h⟩, pc := zext12 nnn } := by
  simp [exec, execCall, s.push_of_lt s.pc h]

theorem exec_call_of_full (nnn : Imm12) {s : State} (h : s.sp.val = 16) :
    exec (.call nnn) s =
      .next { s with fault := some (.addressOutOfRange .stackPush s.pc (some (encode (.call nnn))) none) } := by
  simp [exec, execCall, s.push_of_full s.pc h, State.raise, State.outOfRange]

theorem exec_ret_of_succ {s : State} {j : Nat} (hj : j < 16) (h : s.sp.val = j + 1) :
    exec .ret s = .next { s with sp := ⟨j, by omega⟩, pc := s.stack[j] + 2 } := by
  simp [exec, execReturn, s.pop_of_succ j hj h]

theorem exec_ret_of_empty {s : State} (h : s.sp.val = 0) :
    exec .ret s = .next { s with fault := some (.addressOutOfRange .stackPop s.pc (some (encode .ret)) none) } := by
  simp [exec, execReturn, s.pop_of_empty h, State.raise, State.outOfRange]

/-! ## ALU (42_alu.md) -/

theorem exec_move (x y : RegIndex) (s : State) :
    exec (.move x y) s = .next ((s.setReg x (s.reg y)).advance 2) := rfl

theorem exec_or (x y : RegIndex) (s : State) :
    exec (.or x y) s = .next ((s.setReg x (s.reg x ||| s.reg y)).advance 2) := rfl

theorem exec_and (x y : RegIndex) (s : State) :
    exec (.and x y) s = .next ((s.setReg x (s.reg x &&& s.reg y)).advance 2) := rfl

theorem exec_xor (x y : RegIndex) (s : State) :
    exec (.xor x y) s = .next ((s.setReg x (s.reg x ^^^ s.reg y)).advance 2) := rfl

theorem exec_add (x y : RegIndex) (s : State) : exec (.add x y) s =
    .next (s.setFlagAndResult x (carryFlag (s.reg x) (s.reg y)) (s.reg x + s.reg y)) := rfl

theorem exec_sub (x y : RegIndex) (s : State) : exec (.sub x y) s =
    .next (s.setFlagAndResult x (notBorrowFlag (s.reg x) (s.reg y)) (s.reg x - s.reg y)) := rfl

theorem exec_shiftRight (x y : RegIndex) (s : State) : exec (.shiftRight x y) s =
    .next (s.setFlagAndResult x (shiftedOutLow (s.reg x)) (s.reg x >>> 1)) := rfl

theorem exec_reverseSub (x y : RegIndex) (s : State) : exec (.reverseSub x y) s =
    .next (s.setFlagAndResult x (notBorrowFlag (s.reg y) (s.reg x)) (s.reg y - s.reg x)) := rfl

theorem exec_shiftLeft (x y : RegIndex) (s : State) : exec (.shiftLeft x y) s =
    .next (s.setFlagAndResult x (shiftedOutHigh (s.reg x)) (s.reg x <<< 1)) := rfl

theorem exec_loadRandomMasked (x : RegIndex) (kk : Byte) (s : State) : exec (.loadRandomMasked x kk) s =
    .next { (s.setReg x (Config.drawRnd s.draws &&& kk)).advance 2 with draws := s.draws + 1 } := rfl

/-! ## Index register, memory and sprites (43_index_memory.md, 44_display.md) -/

theorem exec_addToIndex (x : RegIndex) (s : State) :
    exec (.addToIndex x) s = .next (State.advance { s with I := s.I + zext8 (s.reg x) } 2) := rfl

theorem exec_storeBCD (x : RegIndex) (s : State) : exec (.storeBCD x) s =
    s.guardRange .indexWrite (.storeBCD x) 3 ((s.storeAtI (bcdDigits (s.reg x))).advance 2) := rfl

theorem exec_storeRegisters (x : RegIndex) (s : State) : exec (.storeRegisters x) s =
    s.guardRange .indexWrite (.storeRegisters x) (x.toNat + 1) ((s.storeAtI (s.regsUpTo x)).advance 2) := rfl

theorem exec_loadRegisters (x : RegIndex) (s : State) : exec (.loadRegisters x) s =
    s.guardRange .indexRead (.loadRegisters x) (x.toNat + 1) ((s.loadRegs (x.toNat + 1)).advance 2) := rfl

/-- `s` with the `n` sprite bytes at `I` drawn at `V[x]`, `V[y]` and the collision in `VF` (R222). -/
def State.spriteDrawn (s : State) (x y : RegIndex) (n : Nibble) : State :=
  let drawn := s.fb.draw (s.reg x) (s.reg y) (s.loadAtI n.toNat)
  (State.setReg { s with fb := drawn.1 } VF (flagByte drawn.2)).advance 2

theorem exec_drawSprite (x y : RegIndex) (n : Nibble) (s : State) : exec (.drawSprite x y n) s =
    s.guardRange .indexRead (.drawSprite x y n) n.toNat (s.spriteDrawn x y n) := rfl

/-- A guarded access that stays in memory, or has no byte, is done. -/
theorem State.guardRange_inside {s : State} {len : Nat} (sub : SubCause) (i : Instr) (done : State)
    (h : len = 0 ∨ s.I.toNat + len ≤ Config.memSize) : s.guardRange sub i len done = .next done := by
  simp [State.guardRange, (rangeOut_eq_false_iff s.I len).2 h]

/-- A guarded access that leaves memory raises its fault with the highest address. -/
theorem State.guardRange_outside {s : State} {len : Nat} (sub : SubCause) (i : Instr) (done : State)
    (hlen : len ≠ 0) (h : s.I.toNat + (len - 1) > 4095) : s.guardRange sub i len done = .next { s with
      fault := some (.addressOutOfRange sub s.pc (some (encode i)) (some (s.I.toNat + (len - 1)))) } := by
  simp [State.guardRange, (rangeOut_eq_true_iff s.I len).2 ⟨hlen, h⟩, State.raise, State.outOfRange, effectiveAddr]

/-! ## Keypad and timers (45_keypad_timers.md) -/

theorem exec_skipIfKeyPressed (x : RegIndex) (s : State) :
    exec (.skipIfKeyPressed x) s = s.keySkip (.skipIfKeyPressed x) x true := rfl

theorem exec_skipIfKeyNotPressed (x : RegIndex) (s : State) :
    exec (.skipIfKeyNotPressed x) s = s.keySkip (.skipIfKeyNotPressed x) x false := rfl

theorem State.keySkip_of_le {s : State} {x : RegIndex} (i : Instr) (level : Bool) (h : (s.reg x).toNat ≤ 15) :
    s.keySkip i x level = .next (s.skipIf (s.key ((s.reg x).setWidth 4) == level)) := by
  simp [State.keySkip, Nat.not_lt.2 h]

theorem State.keySkip_of_gt {s : State} {x : RegIndex} (i : Instr) (level : Bool) (h : (s.reg x).toNat > 15) :
    s.keySkip i x level = .next { s with
      fault := some (.addressOutOfRange .keyIndex s.pc (some (encode i)) (some (s.reg x).toNat)) } := by
  simp [State.keySkip, h, State.raise, State.outOfRange]

theorem exec_waitForKey (x : RegIndex) (s : State) :
    exec (.waitForKey x) s = .next (State.advance { s with kw := some x } 2) := rfl

theorem exec_readDelayTimer (x : RegIndex) (s : State) :
    exec (.readDelayTimer x) s = .next ((s.setReg x s.dt).advance 2) := rfl

theorem exec_setDelayTimer (x : RegIndex) (s : State) :
    exec (.setDelayTimer x) s = .next (State.advance { s with dt := s.reg x } 2) := rfl

theorem exec_setSoundTimer (x : RegIndex) (s : State) :
    exec (.setSoundTimer x) s = .next (State.advance { s with st := s.reg x } 2) := rfl

end Sys2Proof.Machine
end

section
/-! All an instruction can do: its fault, or the writes of its kind and its next `pc`. Every rule about all
instructions is read off this one lemma. -/

namespace Sys2Proof.Machine

/-- `p` is the next `pc` that R26 tables for an instruction fetched inside memory, which R42(d) bounds. -/
def TabledPc (s : State) (i : Instr) (p : Word) : Prop :=
  s.pc.toNat ≤ 0xFFE → p.toNat = nextPc s i ∧ p.toNat ≤ 0x10FE

/-- What the instruction `i` can make of the state `s`: one constructor per kind of write. -/
inductive Effect (s : State) : Instr → State → Prop where
  /-- The fault listed for the instruction (R276), and nothing else (R279). -/
  | raises {i : Instr} {sub : SubCause} (addr : Option Nat) (hsub : faultSub i = some sub) :
    Effect s i { s with fault := some (.addressOutOfRange sub s.pc (some (encode i)) addr) }
  /-- Registers of the write column of R23, and `pc` as tabled in R26. -/
  | regs {i : Instr} {V : Vector Byte 16} {p : Word} (hV : sameRegsBut (regWrites i) s { s with V := V })
    (hp : TabledPc s i p) : Effect s i { s with V := V, pc := p }
  /-- A register and the count of drawn bytes (R182). -/
  | random {x : RegIndex} {kk : Byte} {V : Vector Byte 16} {d : Nat} (hV : sameRegsBut (· = x) s { s with V := V }) :
    Effect s (.loadRandomMasked x kk) { s with V := V, draws := d, pc := s.pc + 2 }
  /-- `I` (R200 to R202). -/
  | index {i : Instr} {a : Word}
    (hi : (∃ nnn, i = .loadIndex nnn) ∨ ∃ x, i = .addToIndex x ∨ i = .loadFontGlyphAddress x) :
    Effect s i { s with I := a, pc := s.pc + 2 }
  /-- Memory (R203, R204). -/
  | memory {i : Instr} {m : Memory} (hi : ∃ x, i = .storeBCD x ∨ i = .storeRegisters x)
    (hm : s.mem.wf = true → m.wf = true) : Effect s i { s with mem := m, pc := s.pc + 2 }
  /-- The framebuffer and, after a sprite, `VF` (R222, R223). -/
  | display {i : Instr} {fb : Framebuffer} {V : Vector Byte 16}
    (hi : i = .clearDisplay ∨ ∃ x y n, i = .drawSprite x y n) (hV : sameRegsBut (regWrites i) s { s with V := V }) :
    Effect s i { s with fb := fb, V := V, pc := s.pc + 2 }
  /-- The delay timer (R244). -/
  | delay (x : RegIndex) : Effect s (.setDelayTimer x) { s with dt := s.reg x, pc := s.pc + 2 }
  /-- The sound timer (R245). -/
  | sound (x : RegIndex) : Effect s (.setSoundTimer x) { s with st := s.reg x, pc := s.pc + 2 }
  /-- The key-wait marker (R242). -/
  | wait (x : RegIndex) : Effect s (.waitForKey x) { s with kw := some x, pc := s.pc + 2 }
  /-- The push of R152. -/
  | call (nnn : Imm12) (h : s.sp.val < 16) : Effect s (.call nnn) { s with
      stack := s.stack.set s.sp.val s.pc h, sp := ⟨s.sp.val + 1, Nat.succ_lt_succ h⟩, pc := zext12 nnn }
  /-- The pop of R150. -/
  | ret {j : Nat} (hj : j < 16) (h : s.sp.val = j + 1) :
    Effect s .ret { s with sp := ⟨j, by omega⟩, pc := s.stack[j] + 2 }

/-! ## The effect of each shape of instruction -/

theorem sameRegsBut_refl (W : RegIndex → Prop) (s : State) : sameRegsBut W s s := fun _ _ => rfl

theorem pc_add_toNat {p : Word} (h : p.toNat ≤ 0xFFE) {n : Nat} (hn : n ≤ 4) :
    (p + BitVec.ofNat 16 n).toNat = p.toNat + n := by
  rw [BitVec.toNat_add, BitVec.toNat_ofNat]
  omega

theorem tabledPc_add {s : State} {i : Instr} {n : Nat} (hn : n ≤ 4) (hp : nextPc s i = s.pc.toNat + n) :
    TabledPc s i (s.pc + BitVec.ofNat 16 n) := fun h => by
  rw [pc_add_toNat h hn, hp]
  omega

theorem Effect.setReg_advance {s : State} {i : Instr} {x : RegIndex} (b : Byte) (hx : regWrites i x)
    (hp : nextPc s i = s.pc.toNat + 2) : Effect s i ((s.setReg x b).advance 2) :=
  .regs (fun _ hr => s.reg_setReg_of_ne b fun e => hr (e ▸ hx)) (tabledPc_add (by decide) hp)

theorem Effect.setFlagAndResult {s : State} {i : Instr} {x : RegIndex} (flag : Bool) (b : Byte)
    (hx : regWrites i x) (hVF : regWrites i VF) (hp : nextPc s i = s.pc.toNat + 2) :
    Effect s i (s.setFlagAndResult x flag b) := by
  refine .regs (fun r hr => ?_) (tabledPc_add (by decide) hp)
  have hne : r ≠ x ∧ r ≠ VF := ⟨fun e => hr (e ▸ hx), fun e => hr (e ▸ hVF)⟩
  exact (s.reg_setFlagAndResult x r flag b).trans (by simp [hne])

theorem Effect.skipIf {s : State} {i : Instr} {p : Bool} (hp : nextPc s i = s.pc.toNat + if p then 4 else 2) :
    Effect s i (s.skipIf p) :=
  .regs (sameRegsBut_refl _ s) (tabledPc_add (by split <;> omega) hp)

theorem exists_effect_of_guardRange {s : State} {i : Instr} {sub : SubCause} {len : Nat} {done : State}
    (hexec : exec i s = s.guardRange sub i len done) (hsub : faultSub i = some sub)
    (hdone : len = 0 ∨ s.I.toNat + len ≤ Config.memSize → Effect s i done) :
    ∃ t, exec i s = .next t ∧ Effect s i t := by
  rw [hexec]
  rcases s.guardRange_cases sub i len done with ⟨-, -, h⟩ | ⟨hin, h⟩
  · exact ⟨_, h, .raises _ hsub⟩
  · exact ⟨_, h, hdone hin⟩

theorem exists_effect_of_keySkip {s : State} {i : Instr} {x : RegIndex} {level : Bool}
    (hexec : exec i s = s.keySkip i x level) (hsub : faultSub i = some .keyIndex)
    (hp : nextPc s i = s.pc.toNat + if s.key ((s.reg x).setWidth 4) == level then 4 else 2) :
    ∃ t, exec i s = .next t ∧ Effect s i t := by
  rw [hexec]
  rcases Nat.lt_or_ge 15 (s.reg x).toNat with h | h
  · exact ⟨_, State.keySkip_of_gt i level h, .raises _ hsub⟩
  · exact ⟨_, State.keySkip_of_le i level h, .skipIf hp⟩

theorem exists_effect_of_store {s : State} {i : Instr} {bytes : List Byte}
    (hexec : exec i s = s.guardRange .indexWrite i bytes.length ((s.storeAtI bytes).advance 2))
    (hi : ∃ x, i = .storeBCD x ∨ i = .storeRegisters x) : ∃ t, exec i s = .next t ∧ Effect s i t := by
  have hsub : faultSub i = some .indexWrite := by obtain ⟨x, rfl | rfl⟩ := hi <;> rfl
  refine exists_effect_of_guardRange hexec hsub fun hin => .memory hi fun hwf => ?_
  rcases hin with hnil | hin
  · rw [List.length_eq_zero_iff.1 hnil]
    exact hwf
  · exact Memory.setBytes_wf hin hwf

/-! ## The effect of every instruction -/

/-- Every instruction answers a next state, and its effect is one of those listed. -/
theorem exec_effect (i : Instr) (s : State) : ∃ t, exec i s = .next t ∧ Effect s i t := by
  cases i with
  | clearDisplay => exact ⟨_, exec_clearDisplay s, .display (.inl rfl) (sameRegsBut_refl _ s)⟩
  | ret =>
    obtain h | ⟨j, h⟩ : s.sp.val = 0 ∨ ∃ j, s.sp.val = j + 1 := by cases s.sp.val <;> simp
    · exact ⟨_, exec_ret_of_empty h, .raises _ rfl⟩
    · exact ⟨_, exec_ret_of_succ (by omega) h, .ret _ h⟩
  | jump nnn =>
    refine ⟨_, exec_jump nnn s, .regs (sameRegsBut_refl _ s) fun _ => ⟨zext12_toNat nnn, ?_⟩⟩
    have := nnn.isLt
    rw [zext12_toNat]
    omega
  | call nnn =>
    rcases Nat.lt_or_ge s.sp.val 16 with h | h
    · exact ⟨_, exec_call_of_lt nnn h, .call nnn h⟩
    · exact ⟨_, exec_call_of_full nnn (by omega), .raises _ rfl⟩
  | skipIfEqualsImmediate x kk =>
    exact ⟨_, exec_skipIfEqualsImmediate x kk s, .skipIf (by simp [nextPc])⟩
  | skipIfNotEqualsImmediate x kk =>
    exact ⟨_, exec_skipIfNotEqualsImmediate x kk s, .skipIf (by simp [nextPc])⟩
  | skipIfRegistersEqual x y =>
    exact ⟨_, exec_skipIfRegistersEqual x y s, .skipIf (by simp [nextPc])⟩
  | loadImmediate x kk => exact ⟨_, exec_loadImmediate x kk s, .setReg_advance _ rfl rfl⟩
  | addImmediate x kk => exact ⟨_, exec_addImmediate x kk s, .setReg_advance _ rfl rfl⟩
  | move x y => exact ⟨_, exec_move x y s, .setReg_advance _ rfl rfl⟩
  | or x y => exact ⟨_, exec_or x y s, .setReg_advance _ rfl rfl⟩
  | and x y => exact ⟨_, exec_and x y s, .setReg_advance _ rfl rfl⟩
  | xor x y => exact ⟨_, exec_xor x y s, .setReg_advance _ rfl rfl⟩
  | add x y => exact ⟨_, exec_add x y s, .setFlagAndResult _ _ (.inl rfl) (.inr rfl) rfl⟩
  | sub x y => exact ⟨_, exec_sub x y s, .setFlagAndResult _ _ (.inl rfl) (.inr rfl) rfl⟩
  | shiftRight x y => exact ⟨_, exec_shiftRight x y s, .setFlagAndResult _ _ (.inl rfl) (.inr rfl) rfl⟩
  | reverseSub x y => exact ⟨_, exec_reverseSub x y s, .setFlagAndResult _ _ (.inl rfl) (.inr rfl) rfl⟩
  | shiftLeft x y => exact ⟨_, exec_shiftLeft x y s, .setFlagAndResult _ _ (.inl rfl) (.inr rfl) rfl⟩
  | skipIfRegistersNotEqual x y =>
    exact ⟨_, exec_skipIfRegistersNotEqual x y s, .skipIf (by simp [nextPc])⟩
  | loadIndex nnn => exact ⟨_, exec_loadIndex nnn s, .index (.inl ⟨nnn, rfl⟩)⟩
  | jumpPlusRegister0 nnn =>
    refine ⟨_, exec_jumpPlusRegister0 nnn s, .regs (sameRegsBut_refl _ s) fun _ => ?_⟩
    refine ⟨jumpTarget_toNat nnn (s.reg 0), ?_⟩
    have := nnn.isLt
    have := (s.reg 0).isLt
    rw [jumpTarget_toNat]
    omega
  | loadRandomMasked x kk =>
    exact ⟨_, exec_loadRandomMasked x kk s, .random fun _ hr => s.reg_setReg_of_ne _ hr⟩
  | drawSprite x y n =>
    refine exists_effect_of_guardRange (exec_drawSprite x y n s) rfl fun _ => .display (.inr ⟨x, y, n, rfl⟩) ?_
    exact fun _ hr => s.reg_setReg_of_ne _ hr
  | skipIfKeyPressed x => exact exists_effect_of_keySkip (exec_skipIfKeyPressed x s) rfl (by simp [nextPc])
  | skipIfKeyNotPressed x =>
    exact exists_effect_of_keySkip (exec_skipIfKeyNotPressed x s) rfl
      (by cases h : s.key ((s.reg x).setWidth 4) <;> simp [nextPc, h])
  | readDelayTimer x => exact ⟨_, exec_readDelayTimer x s, .setReg_advance _ rfl rfl⟩
  | waitForKey x => exact ⟨_, exec_waitForKey x s, .wait x⟩
  | setDelayTimer x => exact ⟨_, exec_setDelayTimer x s, .delay x⟩
  | setSoundTimer x => exact ⟨_, exec_setSoundTimer x s, .sound x⟩
  | addToIndex x => exact ⟨_, exec_addToIndex x s, .index (.inr ⟨x, .inl rfl⟩)⟩
  | loadFontGlyphAddress x => exact ⟨_, exec_loadFontGlyphAddress x s, .index (.inr ⟨x, .inr rfl⟩)⟩
  | storeBCD x => exact exists_effect_of_store (bytes := bcdDigits (s.reg x)) (exec_storeBCD x s) ⟨x, .inl rfl⟩
  | storeRegisters x =>
    have hexec := exec_storeRegisters x s
    rw [← s.regsUpTo_length x] at hexec
    exact exists_effect_of_store hexec ⟨x, .inr rfl⟩
  | loadRegisters x =>
    refine exists_effect_of_guardRange (exec_loadRegisters x s) rfl fun _ => ?_
    have hx := x.isLt
    have hreg := s.reg_loadRegs (x.toNat + 1) (by omega)
    obtain ⟨V, hV⟩ := s.loadRegs_eq (x.toNat + 1)
    rw [hV] at hreg ⊢
    refine .regs (fun r hr => ?_) (tabledPc_add (n := 2) (by decide) rfl)
    exact (hreg r).trans (if_neg fun hlt => hr (Nat.le_of_lt_succ hlt))

theorem Effect.of_exec {i : Instr} {s t : State} (h : exec i s = .next t) : Effect s i t := by
  obtain ⟨t', h', he⟩ := exec_effect i s
  cases h.symm.trans h'
  exact he

end Sys2Proof.Machine
end

section
/-! The transactions of the host: what a step can be (60_exceptions.md R283), and `Reset` (70_reset_and_hazards.md). -/

namespace Sys2Proof.Machine

/-! ## The step, by what comes next in the host's list (R283) -/

/-- All a step can do: a `Step` of the core, a key operation, a `Reset`, or a read. -/
theorem step_cases {s t : State} (h : step s = .next t) :
    (s.stepsNext ∧ State.stepCore { s with host := s.host.tail } = .next t) ∨
    (∃ k, t = State.keyPress { s with host := s.host.tail } k) ∨
    (∃ k, t = State.keyRelease { s with host := s.host.tail } k) ∨
    (s.resetsNext ∧ ∃ image t₀, State.resetWith image = .ok t₀ ∧
      t = { t₀ with draws := s.draws, host := s.host.tail }) ∨
    t = { s with host := s.host.tail } := by
  cases hhost : s.host with
  | nil => exact .inl ⟨.inl hhost, by rwa [← hhost, ← step_of_stepsNext s (.inl hhost)]⟩
  | cons tr rest =>
    rw [step_of_transaction s hhost] at h
    cases tr with
    | step => exact .inl ⟨.inr (by simp [hhost]), h⟩
    | keyPress k => cases h; exact .inr (.inl ⟨k, rfl⟩)
    | keyRelease k => cases h; exact .inr (.inr (.inl ⟨k, rfl⟩))
    | reset image =>
      simp only [State.transact, State.resetTransaction] at h
      split at h <;> cases h
      exact .inr (.inr (.inr (.inl ⟨⟨image, rest, hhost⟩, image, _, ‹_›, rfl⟩)))
    | readFramebuffer | readFault => cases h; exact .inr (.inr (.inr (.inr rfl)))

/-! ## `Reset` (R300 to R302) -/

theorem State.resetWith_of_le {image : List Byte} (h : image.length ≤ 3584) :
    State.resetWith image = .ok { State.reset with mem := Memory.ofImage Config.progBase image } := by
  simp [State.resetWith, Config.progMax, h]

theorem State.resetWith_of_gt {image : List Byte} (h : image.length > 3584) :
    State.resetWith image = .error (.capacityViolation image.length) := by
  simp [State.resetWith, Config.progMax, h]

/-- An image that fits ends inside memory (R302). -/
theorem image_fits {image : List Byte} (h : image.length ≤ 3584) :
    Config.progBase + image.length ≤ Config.memSize := by
  simp only [Config.progBase, Config.memSize]
  omega

theorem State.resetWith_eq_ok {image : List Byte} {t : State} (h : State.resetWith image = .ok t) :
    image.length ≤ 3584 ∧ t = { State.reset with mem := Memory.ofImage Config.progBase image } := by
  rcases Nat.lt_or_ge 3584 image.length with hlen | hlen
  · rw [State.resetWith_of_gt hlen] at h
    cases h
  · rw [State.resetWith_of_le hlen] at h
    exact ⟨hlen, (Except.ok.inj h).symm⟩

theorem transact_reset_of_le (s : State) {image : List Byte} (h : image.length ≤ 3584) :
    s.transact (.reset image) = .next { State.reset with
      mem := Memory.ofImage Config.progBase image, draws := s.draws, host := s.host } := by
  simp [State.transact, State.resetTransaction, State.resetWith_of_le h]

theorem transact_reset_of_gt (s : State) {image : List Byte} (h : image.length > 3584) :
    s.transact (.reset image) = .refused (.capacityViolation image.length) := by
  simp [State.transact, State.resetTransaction, State.resetWith_of_gt h]

end Sys2Proof.Machine
end

section
/-! The invariant (10_state.md R42) and the next `pc` (R26). -/

namespace Sys2Proof.Machine

/-! ## What keeps the invariant -/

/-- The invariant speaks of six items of the core only. -/
theorem State.Inv.congr {s t : State} (hinv : s.Inv) (hmem : t.mem = s.mem) (hpc : t.pc = s.pc)
    (hstack : t.stack = s.stack) (hsp : t.sp = s.sp) (hfault : t.fault = s.fault)
    (hkw : s.kw = none → t.kw = none) : t.Inv where
  mem_wf := hmem ▸ hinv.mem_wf
  pc_le := hpc ▸ hinv.pc_le
  stack_le j hj := by
    rw [hsp] at hj
    rw [hstack]
    exact hinv.stack_le j hj
  fault_kw hf := hkw (hinv.fault_kw (hfault ▸ hf))
  fault_pc f hf := hpc ▸ hinv.fault_pc f (hfault ▸ hf)

theorem State.Inv.withHost {s : State} (hinv : s.Inv) (ts : List Transaction) : State.Inv { s with host := ts } :=
  hinv.congr rfl rfl rfl rfl rfl id

theorem State.Inv.tick {s : State} (hinv : s.Inv) : s.tick.Inv := hinv.congr rfl rfl rfl rfl rfl id

theorem State.Inv.keyPress {s : State} (hinv : s.Inv) (k : KeyIndex) : (s.keyPress k).Inv := by
  unfold State.keyPress
  split
  · exact hinv
  · split
    · exact hinv.congr rfl rfl rfl rfl rfl id
    · exact hinv.congr rfl rfl rfl rfl rfl fun _ => rfl

theorem State.Inv.keyRelease {s : State} (hinv : s.Inv) (k : KeyIndex) : (s.keyRelease k).Inv := by
  unfold State.keyRelease
  split
  · exact hinv
  · exact hinv.congr rfl rfl rfl rfl rfl id

/-- A fault taken at `pc` with no key-wait pending keeps the invariant. -/
theorem State.Inv.withFault {s : State} (hinv : s.Inv) (hkw : s.kw = none) {f : Fault} (hf : f.pc = s.pc) :
    State.Inv { s with fault := some f } where
  mem_wf := hinv.mem_wf
  pc_le := hinv.pc_le
  stack_le := hinv.stack_le
  fault_kw _ := hkw
  fault_pc _ hg := Option.some.inj hg ▸ hf

/-- On a running core the invariant is its first three parts. -/
theorem State.Inv.of_running {s : State} (hrun : s.running) (hmem : s.mem.wf = true) (hpc : s.pc.toNat ≤ 0x10FE)
    (hstack : ∀ j : Fin 16, j.val < s.sp.val → s.stack[j].toNat ≤ 0xFFE) : s.Inv where
  mem_wf := hmem
  pc_le := hpc
  stack_le := hstack
  fault_kw hf := absurd hrun hf
  fault_pc _ hf := nomatch hrun.symm.trans hf

/-! ## The next `pc` -/

theorem pc_add_two_le {p : Word} (h : p.toNat ≤ 0xFFE) : (p + 2).toNat ≤ 0x10FE := by
  rw [show (p + 2).toNat = p.toNat + 2 from pc_add_toNat h (by decide)]
  omega

/-- An instruction fetched inside memory leaves `pc` in bounds. -/
theorem Effect.pc_le {i : Instr} {s t : State} (h : Effect s i t) (hpc : s.pc.toNat ≤ 0xFFE)
    (hstack : ∀ j : Fin 16, j.val < s.sp.val → s.stack[j].toNat ≤ 0xFFE) : t.pc.toNat ≤ 0x10FE := by
  cases h with
  | raises => exact hpc.trans (by decide)
  | regs hV hp => exact (hp hpc).2
  | call nnn h =>
    have := nnn.isLt
    exact (zext12_toNat nnn).trans_le (by omega)
  | ret hj h => exact pc_add_two_le (hstack ⟨_, hj⟩ (by rw [h]; exact Nat.lt_succ_self _))
  | random | index | memory | display | delay | sound | wait => exact pc_add_two_le hpc

/-- An instruction fetched inside memory that does not fault moves `pc` as R26 tables. -/
theorem Effect.pc_eq_nextPc {i : Instr} {s t : State} (h : Effect s i t) (hpc : s.pc.toNat ≤ 0xFFE)
    (hstack : ∀ j : Fin 16, j.val < s.sp.val → s.stack[j].toNat ≤ 0xFFE) (ht : t.fault = none) :
    t.pc.toNat = nextPc s i := by
  have hnext : (s.pc + 2).toNat = s.pc.toNat + 2 := pc_add_toNat hpc (by decide)
  cases h with
  | raises => cases ht
  | regs hV hp => exact (hp hpc).1
  | call nnn h => exact zext12_toNat nnn
  | ret hj h =>
    have hle := hstack ⟨_, hj⟩ (by rw [h]; exact Nat.lt_succ_self _)
    have hpop := pc_add_toNat (n := 2) hle (by decide)
    simpa [nextPc, h] using hpop
  | index hi => obtain ⟨nnn, rfl⟩ | ⟨x, rfl | rfl⟩ := hi <;> exact hnext
  | memory hi hm => obtain ⟨x, rfl | rfl⟩ := hi <;> exact hnext
  | display hi hV => obtain rfl | ⟨x, y, n, rfl⟩ := hi <;> exact hnext
  | random | delay | sound | wait => exact hnext

/-! ## Every step keeps the invariant -/

/-- A `Call` fetched inside memory pushes an address in bounds. -/
theorem stack_set_le {stack : Vector Word 16} {n : Nat} {p : Word} (hn : n < 16) (hp : p.toNat ≤ 0xFFE)
    (hstack : ∀ j : Fin 16, j.val < n → stack[j].toNat ≤ 0xFFE) (j : Fin 16) (hj : j.val < n + 1) :
    (stack.set n p hn)[j].toNat ≤ 0xFFE := by
  by_cases e : n = j.val
  · simpa [Vector.getElem_set, e] using hp
  · simpa [Vector.getElem_set, e] using hstack j (by omega)

theorem Effect.keeps_inv {i : Instr} {s t : State} (h : Effect s i t) (hinv : s.Inv) (hrun : s.running)
    (hkw : s.kw = none) (hpc : s.pc.toNat ≤ 0xFFE) : t.Inv := by
  have hpc' := h.pc_le hpc hinv.stack_le
  cases h with
  | raises => exact hinv.withFault hkw rfl
  | memory hi hm => exact .of_running hrun (hm hinv.mem_wf) hpc' hinv.stack_le
  | call nnn h => exact .of_running hrun hinv.mem_wf hpc' (stack_set_le h hpc hinv.stack_le)
  | ret hj h =>
    refine .of_running hrun hinv.mem_wf hpc' fun k hk => hinv.stack_le k ?_
    exact h ▸ Nat.lt_succ_of_lt hk
  | regs | random | index | display | delay | sound | wait =>
    exact .of_running hrun hinv.mem_wf hpc' hinv.stack_le

theorem State.stepCore_keeps_inv {s t : State} (hinv : s.Inv) (h : s.stepCore = .next t) : t.Inv := by
  rcases State.stepCore_cases h with ⟨-, rfl⟩ | ⟨-, -, rfl⟩ | ⟨-, hkw, -, f, hf, rfl⟩ | ⟨hrun, hkw, i, -, hpc, hexec⟩
  · exact hinv
  · exact hinv.tick
  · exact hinv.tick.withFault hkw hf
  · exact (Effect.of_exec hexec).keeps_inv hinv.tick hrun hkw (Nat.le_of_lt_succ hpc)

/-! ## Reset -/

theorem State.inv_of_resetWith {image : List Byte} {t : State} (h : State.resetWith image = .ok t) : t.Inv := by
  obtain ⟨hlen, rfl⟩ := State.resetWith_eq_ok h
  have hpc : State.reset.pc.toNat ≤ 0x10FE := by decide
  exact .of_running rfl (Memory.ofImage_wf (image_fits hlen)) hpc fun _ hj => absurd hj (Nat.not_lt_zero _)

/-! ## The obligations -/

/-- Settles O56 (R42, R277, R280): a `Step` halts, ticks or runs one instruction, whose effect keeps the bounds; a key
operation writes no item the invariant speaks of but the key-wait, which it ends; a `Reset` starts anew. -/
theorem everyStepKeepsTheInvariant : Obligations.EveryStepKeepsTheInvariant := by
  intro s t hinv h
  rcases step_cases h with ⟨-, hcore⟩ | ⟨k, rfl⟩ | ⟨k, rfl⟩ | ⟨-, image, t₀, hreset, rfl⟩ | rfl
  · exact State.stepCore_keeps_inv (hinv.withHost _) hcore
  · exact (hinv.withHost _).keyPress k
  · exact (hinv.withHost _).keyRelease k
  · exact (State.inv_of_resetWith hreset).congr rfl rfl rfl rfl rfl id
  · exact hinv.withHost _

/-- Settles O55 (R42): the image lies inside memory, the stack is empty and `pc` is 0x200. -/
theorem resetMeetsTheInvariant : Obligations.ResetMeetsTheInvariant :=
  ⟨State.inv_of_resetWith (image := []) (State.resetWith_of_le (Nat.zero_le _)),
    fun _ _ => State.inv_of_resetWith⟩

theorem Reachable.inv {s : State} (h : Reachable s) : s.Inv := by
  induction h with
  | reset => exact resetMeetsTheInvariant.1
  | host ts _ ih => exact ih.withHost ts
  | step _ hstep ih => exact everyStepKeepsTheInvariant _ _ ih hstep

/-- Settles O57 (R42, R280): reset meets the invariant and every step keeps it. -/
theorem reachableStatesStayInBounds : Obligations.ReachableStatesStayInBounds := fun s h =>
  ⟨h.inv.mem_wf, Nat.le_of_lt_succ s.sp.isLt, h.inv.pc_le, h.inv.stack_le, h.inv.fault_kw⟩

/-- Settles O54 (R26, R279): from a running core an effect sets the latch only by raising, which keeps `pc`. -/
theorem pcAdvancesAsTabled : Obligations.PcAdvancesAsTabled := by
  intro i s t hinv hrun hpc hexec
  have heffect := Effect.of_exec hexec
  refine ⟨heffect.pc_eq_nextPc hpc hinv.stack_le, fun hfault => ?_⟩
  cases heffect with
  | raises => rfl
  | _ => exact absurd hrun hfault

end Sys2Proof.Machine
end

section
/-! The illegal words (R97, R98, R100) and the bytes of an instruction (R62, R90). -/

namespace Sys2Proof

/-! ## Words and their two bytes (R62) -/

theorem bigEndian_toNat (hi lo : Byte) : (bigEndian hi lo).toNat = hi.toNat * 256 + lo.toNat := append_toNat hi lo

theorem bigEndian_wordBytes (w : Word) : bigEndian (w.extractLsb' 8 8) (w.extractLsb' 0 8) = w := by
  apply BitVec.eq_of_toNat_eq
  have := w.isLt
  rw [bigEndian_toNat]
  simp only [BitVec.extractLsb'_toNat, Nat.shiftRight_eq_div_pow]
  omega

/-- A word is known from the numbers of its two bytes. -/
theorem eq_bigEndian_of_toNat {w : Word} {hi lo : Byte} (h : w.toNat = hi.toNat * 256 + lo.toNat) :
    w = bigEndian hi lo := BitVec.eq_of_toNat_eq (h.trans (bigEndian_toNat hi lo).symm)

theorem decodeBytes_encodeBytes (i : Instr) (rest : List Byte) :
    decodeBytes (encodeBytes i ++ rest) = .ok (i, rest) := by
  simp [encodeBytes, wordBytes, decodeBytes, bigEndian_wordBytes, decode_encode, Except.map]

/-! ## Which words each dispatching family rejects (R98, R100) -/

theorem decodeAlu_eq_error_iff (w : Word) : decodeAlu w = .error (.unrecognized w) ↔
    fieldN w ∈ [0x8#4, 0x9#4, 0xA#4, 0xB#4, 0xC#4, 0xD#4, 0xF#4] := by
  unfold decodeAlu
  split
  case h_10 =>
    simp only [imp_false, List.mem_cons, List.not_mem_nil, or_false, true_iff] at *
    bv_omega
  all_goals simp [*]

theorem decodeKey_eq_error_iff (w : Word) : decodeKey w = .error (.unrecognized w) ↔
    fieldKK w ∉ [0x9E#8, 0xA1#8] := by
  unfold decodeKey
  split <;> simp_all

theorem decodeMisc_eq_error_iff (w : Word) : decodeMisc w = .error (.unrecognized w) ↔
    fieldKK w ∉ [0x07#8, 0x0A#8, 0x15#8, 0x18#8, 0x1E#8, 0x29#8, 0x33#8, 0x55#8, 0x65#8] := by
  unfold decodeMisc
  split <;> simp_all

/-! ## A failure carries the raw opcode (R94) -/

theorem decodeAlu_error {w : Word} {e : DecodeError} (h : decodeAlu w = .error e) : e = .unrecognized w := by
  unfold decodeAlu at h
  split at h <;> cases h
  rfl

theorem decodeKey_error {w : Word} {e : DecodeError} (h : decodeKey w = .error e) : e = .unrecognized w := by
  unfold decodeKey at h
  split at h <;> cases h
  rfl

theorem decodeMisc_error {w : Word} {e : DecodeError} (h : decodeMisc w = .error e) : e = .unrecognized w := by
  unfold decodeMisc at h
  split at h <;> cases h
  rfl

theorem decode_error {w : Word} {e : DecodeError} (h : decode w = .error e) : e = .unrecognized w := by
  unfold decode at h
  split at h
  case h_1 => split_ifs at h; cases h; rfl
  case h_6 | h_10 => split_ifs at h; cases h; rfl
  case h_9 => exact decodeAlu_error h
  case h_15 => exact decodeKey_error h
  case h_16 => exact decodeMisc_error h
  all_goals cases h

/-! ## The table of illegal words (R100) -/

/-- The cases follow the leading nibble: a family rejects what its own row of the table names, or nothing. -/
theorem decode_eq_error_iff (w : Word) : decode w = .error (.unrecognized w) ↔
    (fieldN0 w = 0x0 ∧ w ≠ 0x00E0 ∧ w ≠ 0x00EE) ∨
    ((fieldN0 w = 0x5 ∨ fieldN0 w = 0x9) ∧ fieldN w ≠ 0) ∨
    (fieldN0 w = 0x8 ∧ fieldN w ∈ [0x8#4, 0x9#4, 0xA#4, 0xB#4, 0xC#4, 0xD#4, 0xF#4]) ∨
    (fieldN0 w = 0xE ∧ fieldKK w ∉ [0x9E#8, 0xA1#8]) ∨
    (fieldN0 w = 0xF ∧
      fieldKK w ∉ [0x07#8, 0x0A#8, 0x15#8, 0x18#8, 0x1E#8, 0x29#8, 0x33#8, 0x55#8, 0x65#8]) := by
  rw [← decodeAlu_eq_error_iff, ← decodeKey_eq_error_iff, ← decodeMisc_eq_error_iff]
  unfold decode
  split <;> rename_i h0
  case h_1 => split_ifs <;> simp_all
  case h_6 | h_10 => split_ifs <;> simp_all
  case h_16 =>
    have hF : fieldN0 w = 0xF := by simp only [imp_false] at *; bv_omega
    simp [hF]
  all_goals simp [h0]

/-! ## The obligations -/

/-- Settles O1 (R92, R95, R97, R98, R100): the twelve words decoded by evaluation. -/
theorem sampleWordsDecodeAsSpelled : Obligations.SampleWordsDecodeAsSpelled := by
  unfold Obligations.SampleWordsDecodeAsSpelled
  decide

/-- Settles O4 (R94, R100): each family rejects its own row of the table, and an error of the decoder can be no other
than the raw opcode. -/
theorem illegalWordsAreTheTabledOnes : Obligations.IllegalWordsAreTheTabledOnes := by
  refine fun w => ⟨decode_eq_error_iff w, ?_⟩
  cases h : decode w with
  | ok i => exact .inr ⟨i, rfl⟩
  | error e => exact .inl (congrArg _ (decode_error h))

/-- Settles O5 (R62, R90): the two bytes of an encoding, the high one first, make up the encoding again. -/
theorem instructionsAreTwoBytesBigEndian : Obligations.InstructionsAreTwoBytesBigEndian := fun i rest =>
  ⟨decodeBytes_encodeBytes i rest, rfl, _, _, rfl, by rw [← bigEndian_toNat, bigEndian_wordBytes]⟩

end Sys2Proof
end

section
/-! The phases of a `Step` (40_step_cycle.md R130 to R134, R138, R140). -/

namespace Sys2Proof.Machine

/-! ## A `Step` of the core by what it finds at `pc` -/

/-- The word a fetch finds, given as the number its two bytes make (R62). -/
theorem State.fetch_eq_of_toNat {s : State} {w : Word} (hpc : s.pc.toNat + 1 ≤ 4095)
    (hw : w.toNat = (s.mem.get s.pc.toNat).toNat * 256 + (s.mem.get (s.pc.toNat + 1)).toNat) :
    s.fetch = .ok w := by
  rw [s.fetch_ok hpc, ← eq_bigEndian_of_toNat hw]

theorem State.nextInstr_of_decode {s : State} {w : Word} {i : Instr} (hrun : s.running) (hkw : s.kw = none)
    (hf : s.fetch = .ok w) (hd : decode w = .ok i) : s.nextInstr = some i := by
  simp [State.nextInstr, hrun, hkw, hf, hd]

/-- Where an instruction is due, a `Step` is that instruction after the tick. -/
theorem State.stepCore_of_nextInstr {s : State} {i : Instr} (h : s.nextInstr = some i) :
    s.stepCore = exec i s.tick := by
  unfold State.nextInstr at h
  split at h
  case isFalse => cases h
  next hgate =>
    rw [State.stepCore_executing s hgate.1 hgate.2]
    split at h
    · next w hf =>
      split at h <;> cases h
      next hd => exact State.runInstruction_of_decode s.tick hf hd
    · cases h

theorem step_of_nextInstr {s : State} {i : Instr} (hs : s.stepsNext) (h : s.nextInstr = some i) :
    step s = exec i (State.tick { s with host := s.host.tail }) := by
  rw [step_of_stepsNext s hs]
  exact State.stepCore_of_nextInstr h

theorem step_of_executing {s : State} (h : s.executing) :
    step s = State.runInstruction (State.tick { s with host := s.host.tail }) := by
  obtain ⟨hs, hrun, hkw⟩ := h
  rw [step_of_stepsNext s hs]
  exact State.stepCore_executing _ hrun hkw

/-! ## The obligations -/

/-- Settles O6 (R130): past the two gates the bytes at `pc` are the word fetched. -/
theorem stepRunsTheDecodedInstruction : Obligations.StepRunsTheDecodedInstruction := by
  intro s i w ⟨hs, hrun, hkw⟩ hpc hw hd
  have hnext := State.nextInstr_of_decode hrun hkw (State.fetch_eq_of_toNat hpc hw) hd
  exact ⟨hnext, step_of_nextInstr hs hnext⟩

/-- Settles O10 (R133): the fetch is an error, and the first bad address is `pc` or the one after it. -/
theorem fetchBeyondMemoryFaults : Obligations.FetchBeyondMemoryFaults := by
  intro s hex hpc
  have haddr : (if s.pc.toNat > 4095 then s.pc.toNat else s.pc.toNat + 1) =
      if s.pc.toNat = 0xFFF then 0x1000 else s.pc.toNat := by split_ifs <;> omega
  have hf := State.fetch_error (State.tick { s with host := s.host.tail }) (Nat.lt_succ_of_le hpc)
  rw [step_of_executing hex, State.runInstruction_of_fetch_error _ hf, ← haddr]
  rfl

/-- Settles O11 (R134, R271): the word is fetched, and decoding it is an error. -/
theorem illegalWordHaltsWithItsOpcode : Obligations.IllegalWordHaltsWithItsOpcode := by
  intro s w hex hpc hw hillegal
  have hf : State.fetch (State.tick { s with host := s.host.tail }) = .ok w := State.fetch_eq_of_toNat hpc hw
  rw [step_of_executing hex]
  cases hd : decode w with
  | ok i => exact absurd hd (hillegal i)
  | error e =>
    rw [State.runInstruction_of_illegal _ hf hd]
    rfl

/-- Settles O14 (R140): the target is the `pc` that is there already. -/
theorem jumpToSelfIdles : Obligations.JumpToSelfIdles := by
  intro s nnn ⟨hs, _⟩ hnext hpc
  have htarget : zext12 nnn = s.pc := BitVec.eq_of_toNat_eq ((zext12_toNat nnn).trans hpc.symm)
  rw [step_of_nextInstr hs hnext, exec_jump, htarget]
  rfl

end Sys2Proof.Machine
end

section
/-! The word `withFetchWord` places (log 8). -/

namespace Sys2Proof.Machine

theorem State.withFetchWord_pc (s : State) (nbits w : Nat) : (s.withFetchWord nbits w).pc =
    if s.pc.toNat + 1 > 4095 then 0x200 else s.pc := rfl

theorem State.withFetchWord_pc_le (s : State) (nbits w : Nat) : (s.withFetchWord nbits w).pc.toNat + 1 ≤ 4095 := by
  rw [State.withFetchWord_pc]
  split
  · decide
  · omega

theorem State.withFetchWord_mem (s : State) (w : Word) : (s.withFetchWord 16 w.toNat).mem =
    s.mem.setBytes (s.withFetchWord 16 w.toNat).pc.toNat (wordBytes w) := by
  have hw : BitVec.ofNat 16 (w.toNat % 2 ^ 16) = w := by
    rw [Nat.mod_eq_of_lt w.isLt, BitVec.ofNat_toNat, BitVec.setWidth_eq]
  simp only [State.withFetchWord, hw]

/-- The next fetch reads the two bytes placed. -/
theorem State.fetch_withFetchWord {s : State} (hwf : s.mem.wf = true) (w : Word) :
    (s.withFetchWord 16 w.toNat).fetch = .ok w := by
  have hpc := s.withFetchWord_pc_le 16 w.toNat
  have hfits : (s.withFetchWord 16 w.toNat).pc.toNat + (wordBytes w).length ≤ Config.memSize := by
    simp only [wordBytes, List.length_cons, List.length_nil, Config.memSize]
    omega
  rw [State.fetch_ok _ hpc, State.withFetchWord_mem, Memory.get_setBytes hfits hwf, Memory.get_setBytes hfits hwf]
  simp [wordBytes, bigEndian_wordBytes]

/-- Settles O7 (log 8): both gates let the step through, the fetch reads the word placed, and an encoding decodes to its
instruction. -/
theorem placedWordIsRunNext : Obligations.PlacedWordIsRunNext := by
  intro s i hwf
  have hnext := State.nextInstr_of_decode (s := s.withFetchWord 16 (encode i).toNat) rfl rfl
    (State.fetch_withFetchWord hwf (encode i)) (decode_encode i)
  exact step_of_nextInstr (.inl rfl) hnext

end Sys2Proof.Machine
end

section
/-! Runs of steps: a pending key-wait (R132), a halted core (R136), and the host's `Cycle` (R315). -/

namespace Sys2Proof.Machine

/-! ## A pending key-wait -/

theorem step_waiting {s : State} (hs : s.stepsNext) (hrun : s.running) {r : RegIndex} (hkw : s.kw = some r) :
    step s = .next { s with dt := if s.dt = 0 then 0 else s.dt - 1, host := s.host.tail } := by
  rw [step_of_stepsNext s hs]
  exact State.stepCore_waiting _ hrun (hkw ▸ Option.some_ne_none r)

/-- Where the next `n + 1` transactions are `Step`s, the next one is. -/
theorem stepsNext_of_take {s : State} {n : Nat} (h : ∀ tr ∈ s.host.take (n + 1), tr = .step) : s.stepsNext := by
  cases hhost : s.host with
  | nil => exact .inl hhost
  | cons tr rest =>
    refine .inr ?_
    rw [hhost, h tr (by simp [hhost])]
    rfl

/-- The transactions after the next one. -/
theorem take_tail_steps {ts : List Transaction} {n : Nat} (h : ∀ tr ∈ ts.take (n + 1), tr = .step) :
    ∀ tr ∈ ts.tail.take n, tr = .step := by
  cases ts with
  | nil => simp
  | cons tr rest => exact fun tr' h' => h tr' (List.mem_cons_of_mem _ h')

/-- Counting down once and then `n` times is counting down `n + 1` times. -/
theorem ofNat_countDown_sub (t : Byte) (n : Nat) :
    BitVec.ofNat 8 ((countDown t).toNat - n) = BitVec.ofNat 8 (t.toNat - (n + 1)) := by
  rw [countDown_toNat, Nat.sub_sub, Nat.add_comm 1 n]

/-- `n` blocked `Step`s only count `dt` down. -/
theorem run_waiting {r : RegIndex} (n : Nat) : ∀ {s : State}, (∀ tr ∈ s.host.take n, tr = .step) → s.running →
    s.kw = some r → Host.Core.run Sys2Proof.core n s =
      .next { s with dt := BitVec.ofNat 8 (s.dt.toNat - n), host := s.host.drop n } := by
  induction n with
  | zero => intro s _ _ _; simp [run_zero]
  | succ n ih =>
    intro s hsteps hrun hkw
    rw [run_succ (step_waiting (stepsNext_of_take hsteps) hrun hkw)]
    have hrest := ih (s := State.tick { s with host := s.host.tail }) (take_tail_steps hsteps) hrun hkw
    rw [State.tick_dt, ofNat_countDown_sub, State.tick_host, List.drop_tail] at hrest
    exact hrest

/-- A transaction other than a key press or a `Reset` leaves the wait pending. -/
theorem step_keeps_wait {s t : State} {r : RegIndex} {tr : Transaction} {rest : List Transaction} (hrun : s.running)
    (hkw : s.kw = some r) (hhost : s.host = tr :: rest) (hpress : ∀ k, tr ≠ .keyPress k)
    (hreset : ∀ image, tr ≠ .reset image) (h : step s = .next t) : t.kw = some r ∧ t.pc = s.pc ∧ t.fault = none := by
  cases tr with
  | step =>
    rw [step_waiting (.inr (by simp [hhost])) hrun hkw] at h
    cases h
    exact ⟨hkw, rfl, hrun⟩
  | keyPress k => exact absurd rfl (hpress k)
  | reset image => exact absurd rfl (hreset image)
  | keyRelease k =>
    rw [step_of_transaction s hhost] at h
    simp only [State.transact, State.keyRelease, hrun] at h
    cases h
    exact ⟨hkw, rfl, hrun⟩
  | readFramebuffer | readFault =>
    rw [step_of_transaction s hhost] at h
    cases h
    exact ⟨hkw, rfl, hrun⟩

/-- Settles O9 (R132): a blocked `Step` is a tick, so `n` of them count down by `n`, also right after the `WaitForKey`
that armed the gate. -/
theorem keyWaitBlocksUntilKeyPress : Obligations.KeyWaitBlocksUntilKeyPress := by
  refine ⟨fun s r hs hrun hkw => step_waiting hs hrun hkw, fun s r n hsteps hrun hkw => run_waiting n hsteps hrun hkw,
    fun s t r tr rest hrun hkw hhost hpress hreset h => step_keeps_wait hrun hkw hhost hpress hreset h, ?_⟩
  intro s x n hsteps ⟨hs, hrun, _⟩ hnext
  rw [run_succ ((step_of_nextInstr hs hnext).trans (exec_waitForKey x _))]
  have hrest := run_waiting n (s := State.advance { State.tick { s with host := s.host.tail } with kw := some x } 2)
    (take_tail_steps hsteps) hrun rfl
  simp only [State.advance_dt, State.advance_host, State.tick_dt, State.tick_host, ofNat_countDown_sub,
    List.drop_tail] at hrest
  exact hrest

/-! ## A halted core -/

/-- A transaction other than a `Reset` leaves a halted core as it is. -/
theorem transact_halted {s : State} (h : s.fault ≠ none) {tr : Transaction} (htr : ∀ image, tr ≠ .reset image) :
    s.transact tr = .next s := by
  obtain ⟨f, hf⟩ := Option.ne_none_iff_exists'.1 h
  cases tr with
  | step => exact State.stepCore_halted s h
  | keyPress k => simp [State.transact, State.keyPress, hf]
  | keyRelease k => simp [State.transact, State.keyRelease, hf]
  | reset image => exact absurd rfl (htr image)
  | readFramebuffer | readFault => rfl

theorem step_halted {s : State} (h : s.fault ≠ none) (hreset : ∀ image, Transaction.reset image ∉ s.host) :
    step s = .next { s with host := s.host.tail } := by
  cases hhost : s.host with
  | nil =>
    rw [step_of_stepsNext s (.inl hhost), hhost]
    exact State.stepCore_halted _ h
  | cons tr rest =>
    rw [step_of_transaction s hhost]
    refine transact_halted (s := { s with host := rest }) h fun image e => hreset image ?_
    rw [hhost, ← e]
    exact List.mem_cons_self

theorem run_halted (n : Nat) : ∀ {s : State}, s.fault ≠ none → (∀ image, Transaction.reset image ∉ s.host) →
    Host.Core.run Sys2Proof.core n s = .next { s with host := s.host.drop n } := by
  induction n with
  | zero => intro s _ _; simp [run_zero]
  | succ n ih =>
    intro s h hreset
    rw [run_succ (step_halted h hreset)]
    have hrest := ih (s := { s with host := s.host.tail }) h fun image hmem =>
      hreset image (List.mem_of_mem_tail hmem)
    rw [List.drop_tail] at hrest
    exact hrest

/-- Settles O12 (R136, R278): no transaction but a `Reset` writes a halted core, so none of `n` does. -/
theorem haltedCoreNeverChanges : Obligations.HaltedCoreNeverChanges := fun _ n => run_halted n

/-! ## The reads of the host -/

/-- Settles O59 (R225, R277, R283): both reads answer the state they find. -/
theorem readsLeaveTheCoreAsItWas : Obligations.ReadsLeaveTheCoreAsItWas := fun s _ =>
  ⟨fun h => step_of_transaction s h, fun h => step_of_transaction s h⟩

end Sys2Proof.Machine
end

section
/-! Who writes what (10_state.md R23, R27, R36, R39) and which fault an instruction can raise (60_exceptions.md R276,
R277, R279): read off an instruction's effect. -/

namespace Sys2Proof.Machine

/-! ## What every effect leaves alone -/

theorem Effect.host_eq {i : Instr} {s t : State} (h : Effect s i t) : t.host = s.host := by cases h <;> rfl

theorem Effect.keys_eq {i : Instr} {s t : State} (h : Effect s i t) : t.keys = s.keys := by cases h <;> rfl

/-! ## Who writes each item -/

theorem Effect.sameRegsBut {i : Instr} {s t : State} (h : Effect s i t) : sameRegsBut (regWrites i) s t := by
  cases h with
  | regs hV | random hV => exact hV
  | display _ hV => exact hV
  | raises | index | memory | delay | sound | wait | call | ret => exact sameRegsBut_refl _ s

theorem Effect.writer_of_mem_ne {i : Instr} {s t : State} (h : Effect s i t) (hne : t.mem ≠ s.mem) :
    ∃ x, i = .storeBCD x ∨ i = .storeRegisters x := by
  cases h with
  | memory hi => exact hi
  | _ => exact absurd rfl hne

theorem Effect.writer_of_fb_ne {i : Instr} {s t : State} (h : Effect s i t) (hne : t.fb ≠ s.fb) :
    i = .clearDisplay ∨ ∃ x y n, i = .drawSprite x y n := by
  cases h with
  | display hi => exact hi
  | _ => exact absurd rfl hne

theorem Effect.writer_of_I_ne {i : Instr} {s t : State} (h : Effect s i t) (hne : t.I ≠ s.I) :
    (∃ nnn, i = .loadIndex nnn) ∨ ∃ x, i = .addToIndex x ∨ i = .loadFontGlyphAddress x := by
  cases h with
  | index hi => exact hi
  | _ => exact absurd rfl hne

theorem Effect.writer_of_stack_ne {i : Instr} {s t : State} (h : Effect s i t) (hne : t.stack ≠ s.stack) :
    ∃ nnn, i = .call nnn := by
  cases h with
  | call nnn => exact ⟨nnn, rfl⟩
  | _ => exact absurd rfl hne

theorem Effect.writer_of_sp_ne {i : Instr} {s t : State} (h : Effect s i t) (hne : t.sp ≠ s.sp) :
    i = .ret ∨ ∃ nnn, i = .call nnn := by
  cases h with
  | call nnn => exact .inr ⟨nnn, rfl⟩
  | ret => exact .inl rfl
  | _ => exact absurd rfl hne

theorem Effect.writer_of_dt_ne {i : Instr} {s t : State} (h : Effect s i t) (hne : t.dt ≠ s.dt) :
    ∃ x, i = .setDelayTimer x := by
  cases h with
  | delay x => exact ⟨x, rfl⟩
  | _ => exact absurd rfl hne

theorem Effect.writer_of_st_ne {i : Instr} {s t : State} (h : Effect s i t) (hne : t.st ≠ s.st) :
    ∃ x, i = .setSoundTimer x := by
  cases h with
  | sound x => exact ⟨x, rfl⟩
  | _ => exact absurd rfl hne

theorem Effect.writer_of_kw_ne {i : Instr} {s t : State} (h : Effect s i t) (hne : t.kw ≠ s.kw) :
    ∃ x, i = .waitForKey x := by
  cases h with
  | wait x => exact ⟨x, rfl⟩
  | _ => exact absurd rfl hne

/-- From a running core the latch is set by raising, and then nothing else is written. -/
theorem Effect.raised_of_fault {i : Instr} {s t : State} {f : Fault} (h : Effect s i t) (hrun : s.running)
    (hf : t.fault = some f) : t = { s with fault := some f } ∧
      ∃ sub addr, faultSub i = some sub ∧ f = .addressOutOfRange sub s.pc (some (encode i)) addr := by
  cases h with
  | raises addr hsub => cases hf; exact ⟨rfl, _, addr, hsub, rfl⟩
  | _ => exact nomatch hrun.symm.trans hf

/-! ## The obligations about instructions -/

/-- Settles O49 (R276): an effect raises the listed sub-cause with the instruction's own word. -/
theorem instructionsRaiseOnlyTheirOwnFault : Obligations.InstructionsRaiseOnlyTheirOwnFault :=
  fun _ _ _ _ hrun hexec hf => ((Effect.of_exec hexec).raised_of_fault hrun hf).2

/-- Settles O52 (R23): each effect writes registers of the instruction's write column or none. -/
theorem instructionsWriteOnlyTheirRegisters : Obligations.InstructionsWriteOnlyTheirRegisters :=
  fun _ _ _ hexec => (Effect.of_exec hexec).sameRegsBut

/-- Settles O53 (R34, R35, R39): each item is written by one kind of effect, the keypad by none. -/
theorem controlRegistersHaveTheirOwnWriters : Obligations.ControlRegistersHaveTheirOwnWriters := fun _ _ _ hexec =>
  have h := Effect.of_exec hexec
  ⟨h.writer_of_I_ne, h.writer_of_stack_ne, h.writer_of_sp_ne, h.writer_of_dt_ne, h.writer_of_st_ne,
    h.writer_of_kw_ne, h.keys_eq⟩

/-! ## A `Step` of the core: it always answers, and who writes memory and the framebuffer -/

/-- A `Step` halts, ticks, faults before an instruction is known, or is an instruction. -/
theorem State.exists_stepCore (s : State) : ∃ t, s.stepCore = .next t := by
  by_cases hrun : s.fault = none
  · by_cases hkw : s.kw = none
    · rw [State.stepCore_executing s hrun hkw, State.runInstruction]
      split
      · exact ⟨_, rfl⟩
      · split
        · exact ⟨_, rfl⟩
        · next i _ =>
          obtain ⟨t, h, -⟩ := exec_effect i s.tick
          exact ⟨t, h⟩
    · exact ⟨_, State.stepCore_waiting s hrun hkw⟩
  · exact ⟨_, State.stepCore_halted s hrun⟩

/-- A `Step` writes no more than `dt` and the latch, or has the effect of the instruction it runs. -/
theorem State.stepCore_effect {s t : State} (h : s.stepCore = .next t) :
    (∃ dt f, (s.running → dt = countDown s.dt) ∧ t = { s with dt := dt, fault := f }) ∨
    ∃ i, s.nextInstr = some i ∧ Effect s.tick i t := by
  rcases State.stepCore_cases h with ⟨hf, rfl⟩ | ⟨-, -, rfl⟩ | ⟨-, -, -, f, -, rfl⟩ | ⟨-, -, i, hnext, -, hexec⟩
  · exact .inl ⟨_, _, fun hrun => absurd hrun hf, rfl⟩
  · exact .inl ⟨_, _, fun _ => rfl, rfl⟩
  · exact .inl ⟨_, _, fun _ => rfl, rfl⟩
  · exact .inr ⟨i, hnext, .of_exec hexec⟩

theorem State.stepCore_host_eq {s t : State} (h : s.stepCore = .next t) : t.host = s.host := by
  rcases State.stepCore_effect h with ⟨dt, f, -, rfl⟩ | ⟨i, -, heffect⟩
  · rfl
  · exact heffect.host_eq

/-! ## The key operations of the host -/

theorem State.keyPress_eq (s : State) (k : KeyIndex) :
    ∃ V keys kw, s.keyPress k = { s with V := V, keys := keys, kw := kw } := by
  unfold State.keyPress
  split
  · exact ⟨_, _, _, rfl⟩
  · split <;> exact ⟨_, _, _, rfl⟩

theorem State.keyRelease_eq (s : State) (k : KeyIndex) : ∃ keys, s.keyRelease k = { s with keys := keys } := by
  unfold State.keyRelease
  split <;> exact ⟨_, rfl⟩

/-! ## The obligations about steps -/

/-- The item `g` of the core is none that a tick, a fault or a key operation writes. -/
def KeptOutsideInstructions {α : Type} (g : State → α) : Prop :=
  ∀ (s : State) (V : Vector Byte 16) (dt : Byte) (kw : Option RegIndex) (keys : Vector Bool 16) (f : Option Fault)
    (ts : List Transaction), g { s with V := V, dt := dt, kw := kw, keys := keys, fault := f, host := ts } = g s

/-- What a step does to such an item: it is made anew by a `Reset`, stays, or is written by the instruction of a
`Step`. -/
theorem step_item_cases {α : Type} {g : State → α} (hg : KeptOutsideInstructions g) {s t : State}
    (h : step s = .next t) :
    s.resetsNext ∨ g t = g s ∨
      (s.stepsNext ∧ ∃ i, s.nextInstr = some i ∧ Effect (State.tick { s with host := s.host.tail }) i t) := by
  rcases step_cases h with ⟨hs, hcore⟩ | ⟨k, rfl⟩ | ⟨k, rfl⟩ | ⟨hreset, -⟩ | rfl
  · rcases State.stepCore_effect hcore with ⟨dt, f, -, rfl⟩ | hran
    · exact .inr (.inl (hg s _ _ _ _ _ _))
    · exact .inr (.inr ⟨hs, hran⟩)
  · obtain ⟨V, keys, kw, hkey⟩ := State.keyPress_eq { s with host := s.host.tail } k
    exact .inr (.inl (hkey ▸ hg s _ _ _ _ _ _))
  · obtain ⟨keys, hkey⟩ := State.keyRelease_eq { s with host := s.host.tail } k
    exact .inr (.inl (hkey ▸ hg s _ _ _ _ _ _))
  · exact .inl hreset
  · exact .inr (.inl (hg s _ _ _ _ _ _))

/-- Settles O50 (R27): beside a `Reset` only the instruction of a `Step` can write memory, and its effect says which. -/
theorem onlyTwoInstructionsWriteMemory : Obligations.OnlyTwoInstructionsWriteMemory := by
  intro s t h hne
  rcases step_item_cases (g := (·.mem)) (fun _ _ _ _ _ _ _ => rfl) h with hreset | hsame | ⟨hs, i, hnext, heffect⟩
  · exact .inl hreset
  · exact absurd hsame hne
  · obtain ⟨x, rfl | rfl⟩ := heffect.writer_of_mem_ne hne
    · exact .inr ⟨hs, x, .inl hnext⟩
    · exact .inr ⟨hs, x, .inr hnext⟩

/-- Settles O51 (R36): beside a `Reset` only the instruction of a `Step` can write the framebuffer, and its effect says
which. -/
theorem onlyTwoInstructionsWriteTheFramebuffer : Obligations.OnlyTwoInstructionsWriteTheFramebuffer := by
  intro s t h hne
  rcases step_item_cases (g := (·.fb)) (fun _ _ _ _ _ _ _ => rfl) h with hreset | hsame | ⟨hs, i, hnext, heffect⟩
  · exact .inl hreset
  · exact absurd hsame hne
  · obtain rfl | ⟨x, y, n, rfl⟩ := heffect.writer_of_fb_ne hne
    · exact .inr ⟨hs, .inl hnext⟩
    · exact .inr ⟨hs, .inr ⟨x, y, n, hnext⟩⟩

/-- Settles O47 (R10): a `Step` always answers; of the other transactions only a `Reset` can be refused. -/
theorem everyTransactionHasItsOutcome : Obligations.EveryTransactionHasItsOutcome := by
  intro s
  cases hhost : s.host with
  | nil => exact .inl (step_of_no_transaction s hhost ▸ s.exists_stepCore)
  | cons tr rest =>
    rw [step_of_transaction s hhost]
    cases tr with
    | step => exact .inl (State.exists_stepCore _)
    | reset image =>
      rcases Nat.lt_or_ge 3584 image.length with hlen | hlen
      · exact .inr ⟨image, rest, rfl, hlen, transact_reset_of_gt _ hlen⟩
      · exact .inl ⟨_, transact_reset_of_le _ hlen⟩
    | keyPress | keyRelease | readFramebuffer | readFault => exact .inl ⟨_, rfl⟩

/-- Settles O48 (R277, R279, R280): of the ways of a `Step` two set the latch of a running core, the fault of the fetch
or the decoder and the one an instruction raises; both write the ticked `dt` and the latch alone. -/
theorem faultsArePrecise : Obligations.FaultsArePrecise := by
  intro s t f hs hrun h hf
  rw [step_of_stepsNext s hs] at h
  rcases State.stepCore_cases h with ⟨hhalt, -⟩ | ⟨-, -, rfl⟩ | ⟨-, hkw, -, g, hg, rfl⟩ | ⟨-, hkw, i, -, -, hexec⟩
  · exact absurd hrun hhalt
  · exact nomatch hrun.symm.trans hf
  · cases hf
    exact ⟨rfl, hg, hkw⟩
  · obtain ⟨rfl, sub, addr, -, rfl⟩ := (Effect.of_exec hexec).raised_of_fault hrun hf
    exact ⟨rfl, rfl, hkw⟩

/-- Settles O8 (R131): the tick comes first; after it an instruction overwrites a timer only if it is that timer's own,
and `ReadDelayTimer` reads what the tick left. -/
theorem delayTimerTicksFirstInEveryStep : Obligations.DelayTimerTicksFirstInEveryStep := by
  intro s t hs hrun h
  have hstep := fun {i : Instr} (hnext : s.nextInstr = some i) => (step_of_nextInstr hs hnext).symm.trans h
  have hcore := (step_of_stepsNext s hs).symm.trans h
  refine ⟨fun hset => ?_, fun hset => ?_, fun x hnext => ?_, fun x hnext => ?_⟩
  · have hdt : t.dt = countDown s.dt := by
      rcases State.stepCore_effect hcore with ⟨dt, f, hdt, rfl⟩ | ⟨i, hnext, heffect⟩
      · exact hdt hrun
      · by_contra hne
        obtain ⟨x, rfl⟩ := heffect.writer_of_dt_ne hne
        exact hset x hnext
    rw [hdt, countDown_toNat]
  · rcases State.stepCore_effect hcore with ⟨dt, f, -, rfl⟩ | ⟨i, hnext, heffect⟩
    · rfl
    · by_contra hne
      obtain ⟨x, rfl⟩ := heffect.writer_of_st_ne hne
      exact hset x hnext
  · cases (exec_setDelayTimer x _).symm.trans (hstep hnext)
    rfl
  · cases (exec_readDelayTimer x _).symm.trans (hstep hnext)
    rw [State.advance_reg, State.reg_setReg_self]
    exact countDown_toNat s.dt

/-- A run of `Step`s from an empty host list is `steps`. -/
theorem steps_eq_run (n : Nat) : ∀ {s : State}, s.hostSteps → s.steps n = Host.Core.run Sys2Proof.core n s := by
  induction n with
  | zero => exact fun _ => rfl
  | succ n ih =>
    intro s hs
    obtain ⟨t, ht⟩ := s.exists_stepCore
    rw [run_succ ((step_of_no_transaction s hs).trans ht), ← ih ((State.stepCore_host_eq ht).trans hs)]
    simp only [State.steps, ht]

/-- Settles O46 (R315): a `Step` leaves the empty host list empty, so the next transaction is a `Step` again. -/
theorem cycleIssuesOneStepLess : Obligations.CycleIssuesOneStepLess := fun _ steps hs => steps_eq_run (steps - 1) hs

end Sys2Proof.Machine
end

section
/-! The inputs beside the core (R38(a), R138, R283): what an answer does not depend on. -/

namespace Sys2Proof.Machine

/-! ## The inputs of a state exchanged -/

/-- `s` with the count of drawn bytes and the host's list exchanged by the given functions, the core kept. -/
def State.mapInputs (d : Nat → Nat) (l : List Transaction → List Transaction) (s : State) : State :=
  { s with draws := d s.draws, host := l s.host }

/-- The answer with the inputs of its state exchanged. -/
def mapInputs (d : Nat → Nat) (l : List Transaction → List Transaction) : Result → Result
  | .next t => .next (t.mapInputs d l)
  | r => r

section
variable (d : Nat → Nat) (l : List Transaction → List Transaction)

/-! ## The shared operations do not look at the inputs -/

theorem guardRange_mapInputs (s done : State) (sub : SubCause) (i : Instr) (len : Nat) :
    (s.mapInputs d l).guardRange sub i len (done.mapInputs d l) = mapInputs d l (s.guardRange sub i len done) := by
  have hrange : (s.mapInputs d l).I = s.I := rfl
  unfold State.guardRange
  rw [hrange]
  split <;> rfl

theorem keySkip_mapInputs (s : State) (i : Instr) (x : RegIndex) (level : Bool) :
    (s.mapInputs d l).keySkip i x level = mapInputs d l (s.keySkip i x level) := by
  have hreg : (s.mapInputs d l).reg x = s.reg x := rfl
  rcases Nat.lt_or_ge 15 (s.reg x).toNat with h | h
  · rw [State.keySkip_of_gt i level h, State.keySkip_of_gt i level (hreg ▸ h)]
    rfl
  · rw [State.keySkip_of_le i level h, State.keySkip_of_le i level (hreg ▸ h)]
    rfl

theorem loadRegs_mapInputs (s : State) (n : Nat) : (s.mapInputs d l).loadRegs n = (s.loadRegs n).mapInputs d l := by
  induction n with
  | zero => rfl
  | succ n ih => rw [State.loadRegs, State.loadRegs, ih]; rfl

/-! ## No instruction looks at the host's list, and one alone at the count of drawn bytes -/

/-- Exchanging the inputs before an instruction is exchanging them after it, where the count of drawn bytes is kept or
the instruction draws none. -/
theorem exec_mapInputs (i : Instr) (s : State) (hi : (∀ x kk, i ≠ .loadRandomMasked x kk) ∨ d = id) :
    exec i (s.mapInputs d l) = mapInputs d l (exec i s) := by
  cases i with
  | loadRandomMasked x kk =>
    obtain hi | rfl := hi
    · exact absurd rfl (hi x kk)
    · rfl
  | ret =>
    obtain h | ⟨j, h⟩ : s.sp.val = 0 ∨ ∃ j, s.sp.val = j + 1 := by cases s.sp.val <;> simp
    · rw [exec_ret_of_empty h, exec_ret_of_empty (s := s.mapInputs d l) h]
      rfl
    · have hj : j < 16 := by omega
      rw [exec_ret_of_succ hj h, exec_ret_of_succ (s := s.mapInputs d l) hj h]
      rfl
  | call nnn =>
    rcases Nat.lt_or_ge s.sp.val 16 with h | h
    · rw [exec_call_of_lt nnn h, exec_call_of_lt nnn (s := s.mapInputs d l) h]
      rfl
    · have hfull : s.sp.val = 16 := by omega
      rw [exec_call_of_full nnn hfull, exec_call_of_full nnn (s := s.mapInputs d l) hfull]
      rfl
  | skipIfKeyPressed x => exact keySkip_mapInputs d l s _ x true
  | skipIfKeyNotPressed x => exact keySkip_mapInputs d l s _ x false
  | drawSprite x y n => exact guardRange_mapInputs d l s (s.spriteDrawn x y n) _ _ _
  | storeBCD x => exact guardRange_mapInputs d l s ((s.storeAtI (bcdDigits (s.reg x))).advance 2) _ _ _
  | storeRegisters x => exact guardRange_mapInputs d l s ((s.storeAtI (s.regsUpTo x)).advance 2) _ _ _
  | loadRegisters x =>
    rw [exec_loadRegisters, exec_loadRegisters, loadRegs_mapInputs]
    exact guardRange_mapInputs d l s ((s.loadRegs (x.toNat + 1)).advance 2) _ _ _
  | _ => rfl

theorem stepCore_mapInputs (s : State) (hi : (∀ x kk, s.nextInstr ≠ some (.loadRandomMasked x kk)) ∨ d = id) :
    (s.mapInputs d l).stepCore = mapInputs d l s.stepCore := by
  by_cases hrun : s.fault = none
  · by_cases hkw : s.kw = none
    · rw [State.stepCore_executing s hrun hkw, State.stepCore_executing (s.mapInputs d l) hrun hkw]
      have hfetch : (s.mapInputs d l).tick.fetch = s.tick.fetch := rfl
      cases hf : s.tick.fetch with
      | error f =>
        rw [State.runInstruction_of_fetch_error _ hf, State.runInstruction_of_fetch_error _ (hfetch.trans hf)]
        rfl
      | ok w =>
        cases hd : decode w with
        | error e =>
          rw [State.runInstruction_of_illegal _ hf hd, State.runInstruction_of_illegal _ (hfetch.trans hf) hd]
          rfl
        | ok i =>
          rw [State.runInstruction_of_decode _ hf hd, State.runInstruction_of_decode _ (hfetch.trans hf) hd]
          have hnext := State.nextInstr_of_decode hrun hkw hf hd
          exact exec_mapInputs d l i s.tick (hi.imp_left fun hne x kk e => hne x kk (e ▸ hnext))
    · rw [State.stepCore_waiting s hrun hkw, State.stepCore_waiting (s.mapInputs d l) hrun hkw]
      rfl
  · rw [State.stepCore_halted s hrun, State.stepCore_halted (s.mapInputs d l) hrun]
    rfl

end

/-- No transaction looks at the transactions after it. -/
theorem transact_mapInputs_host (s : State) (ts : List Transaction) (tr : Transaction) :
    (s.mapInputs id fun _ => ts).transact tr = mapInputs id (fun _ => ts) (s.transact tr) := by
  cases tr with
  | step => exact stepCore_mapInputs id _ s (.inr rfl)
  | keyPress k =>
    obtain ⟨⟨V, I, pc, mem, stack, sp, dt, st, kw, keys, fb, fault⟩, draws, host⟩ := s
    cases fault <;> cases kw <;> rfl
  | keyRelease k =>
    obtain ⟨⟨V, I, pc, mem, stack, sp, dt, st, kw, keys, fb, fault⟩, draws, host⟩ := s
    cases fault <;> rfl
  | reset image =>
    rcases Nat.lt_or_ge 3584 image.length with h | h
    · rw [transact_reset_of_gt _ h, transact_reset_of_gt _ h]
      rfl
    · rw [transact_reset_of_le _ h, transact_reset_of_le _ h]
      rfl
  | readFramebuffer | readFault => rfl

/-! ## The obligations -/

/-- Settles O13 (R138): the one instruction that draws is not due, so exchanging the count of drawn bytes commutes with
the step. -/
theorem randomByteMattersOnlyToLoadRandomMasked : Obligations.RandomByteMattersOnlyToLoadRandomMasked := by
  intro s n hs hnext
  have hmap : ∀ r, mapInputs (fun _ => n) id r = withDraws n r := fun r => by cases r <;> rfl
  rw [step_of_stepsNext s hs, step_of_stepsNext { s with draws := n } hs, ← hmap]
  exact stepCore_mapInputs (fun _ => n) id { s with host := s.host.tail } (.inl hnext)

/-- Settles O58 (R20, R138): the two states differ in what the host has listed after the next transaction, which no
transaction looks at. -/
theorem nothingButTheCoreAndItsInputsMatters : Obligations.NothingButTheCoreAndItsInputsMatters := by
  rintro ⟨c, d, ts⟩ ⟨_, _, us⟩ t hcore hdraws hhead h
  obtain rfl : c = _ := hcore
  obtain rfl : d = _ := hdraws
  cases ts with
  | nil =>
    cases us with
    | nil => exact ⟨t, h, rfl, rfl⟩
    | cons => cases hhead
  | cons tr ts =>
    cases us with
    | nil => cases hhead
    | cons tr' us =>
      obtain rfl : tr = tr' := Option.some.inj hhead
      have hother := transact_mapInputs_host ⟨c, d, ts⟩ us tr
      rw [← step_of_transaction ⟨c, d, tr :: ts⟩ rfl, h] at hother
      exact ⟨_, hother, rfl, rfl⟩

end Sys2Proof.Machine
end

section
/-! The key operations (45_keypad_timers.md R246, R247) and `Reset` (70_reset_and_hazards.md R300 to R306). -/

namespace Sys2Proof.Machine

/-! ## Key operations on a running core -/

theorem State.keyPress_waiting {s : State} (hrun : s.running) {r : RegIndex} (hkw : s.kw = some r) (k : KeyIndex) :
    s.keyPress k = { (s.setKey k true).setReg r (keyByte k) with kw := none } := by
  simp only [State.keyPress, hrun, hkw]

theorem State.keyPress_of_no_wait {s : State} (hrun : s.running) (hkw : s.kw = none) (k : KeyIndex) :
    s.keyPress k = s.setKey k true := by
  simp only [State.keyPress, hrun, hkw]

theorem State.keyRelease_running {s : State} (hrun : s.running) (k : KeyIndex) :
    s.keyRelease k = s.setKey k false := by
  simp only [State.keyRelease, hrun]

theorem keyByte_toNat (k : KeyIndex) : (keyByte k).toNat = k.toNat := by
  have := k.isLt
  simp only [keyByte, BitVec.toNat_setWidth]
  omega

/-! ## What memory reads as where nothing is placed (R41, R61) -/

theorem Memory.resetByte_of_lt {a : Nat} (h : a < 80) : Memory.resetByte a = Config.fontTable.getD a 0 := by
  simp [Memory.resetByte, Config.fontBase, Config.fontSize, h]

theorem Memory.resetByte_of_ge {a : Nat} (h : 80 ≤ a) : Memory.resetByte a = 0 := by
  simp [Memory.resetByte, Config.fontBase, Config.fontSize, Nat.not_lt.2 h]

section
variable {image : List Byte} (h : image.length ≤ 3584)
include h

/-- An image that fits is read back from 0x200 on (R301). -/
theorem Memory.get_ofImage_inside {j : Nat} (hj : j < image.length) :
    (Memory.ofImage Config.progBase image).get (0x200 + j) = image[j] := by
  have hin : Config.progBase ≤ 0x200 + j ∧ 0x200 + j - Config.progBase < image.length := by
    simp only [Config.progBase]
    omega
  have hidx : 0x200 + j - Config.progBase = j := Nat.add_sub_cancel_left 0x200 j
  rw [Memory.get_ofImage (image_fits h), dif_pos hin]
  simp only [hidx]

/-- Outside an image that fits memory reads as at reset (R41). -/
theorem Memory.get_ofImage_outside {a : Nat} (ha : a < 0x200 ∨ 0x200 + image.length ≤ a) :
    (Memory.ofImage Config.progBase image).get a = Memory.resetByte a := by
  rw [Memory.get_ofImage (image_fits h), dif_neg]
  simp only [Config.progBase]
  omega

end

/-! ## The obligations -/

/-- Settles O42 (R246): the key is marked in any case; a pending wait gets its number in the waiting register. -/
theorem keyPressResolvesThePendingWait : Obligations.KeyPressResolvesThePendingWait := by
  intro s k rest hrun hhost
  have hstep : step s = .next (State.keyPress { s with host := rest } k) := step_of_transaction s hhost
  obtain hkw | ⟨r, hkw⟩ := Option.eq_none_or_eq_some s.kw
  · rw [State.keyPress_of_no_wait (s := { s with host := rest }) hrun hkw] at hstep
    exact ⟨_, hstep, State.key_setKey_self _ k true, fun _ hne => State.key_setKey_of_ne _ true hne, hkw, rfl,
      fun _ hr => (Option.some_ne_none _ (hr.symm.trans hkw)).elim, onlyRegsChange_withV s _ fun _ _ => rfl, rfl⟩
  · rw [State.keyPress_waiting (s := { s with host := rest }) hrun hkw] at hstep
    refine ⟨_, hstep, State.key_setKey_self _ k true, fun _ hne => State.key_setKey_of_ne _ true hne, rfl, rfl,
      fun r' hr' => ?_, onlyRegsChange_withV s _ fun r' hne => ?_, rfl⟩
    · obtain rfl : r = r' := Option.some.inj (hkw.symm.trans hr')
      exact (congrArg BitVec.toNat (State.reg_setReg_self _ r (keyByte k))).trans (keyByte_toNat k)
    · exact State.reg_setReg_of_ne (State.setKey { s with host := rest } k true) (keyByte k) fun e => hne (e ▸ hkw)

/-- Settles O43 (R247): on a running core a release writes the keypad alone. -/
theorem keyReleaseOnlyUnmarksItsKey : Obligations.KeyReleaseOnlyUnmarksItsKey := by
  intro s k rest hrun hhost
  have hstep : step s = .next (State.keyRelease { s with host := rest } k) := step_of_transaction s hhost
  rw [State.keyRelease_running (s := { s with host := rest }) hrun] at hstep
  exact ⟨_, hstep, State.key_setKey_self _ k false, fun _ hne => State.key_setKey_of_ne _ false hne, rfl, rfl,
    onlyPcChanges_withPc s s.pc⟩

/-- Settles O44 (R41, R300 to R302): the cells of the image are placed over what an unlisted address reads as. -/
theorem resetPlacesTheImageOrRefuses : Obligations.ResetPlacesTheImageOrRefuses := by
  refine fun image => ⟨fun h => ?_, State.resetWith_of_gt⟩
  refine ⟨_, State.resetWith_of_le h, Memory.ofImage_wf (image_fits h), fun a ha => ?_, fun a hlo hhi => ?_,
    fun j hj => Memory.get_ofImage_inside h hj, fun a hlo _ => ?_, rfl, fun r => ?_, rfl, rfl, fun j => ?_, rfl, rfl,
    rfl, fun k => ?_, Framebuffer.pixel_clear, rfl⟩
  · exact (Memory.get_ofImage_outside h (.inl (by omega))).trans (Memory.resetByte_of_lt ha)
  · exact (Memory.get_ofImage_outside h (.inl hhi)).trans (Memory.resetByte_of_ge hlo)
  · exact (Memory.get_ofImage_outside h (.inr hlo)).trans (Memory.resetByte_of_ge (by omega))
  · exact Vector.getElem_replicate r.isLt
  · exact Vector.getElem_replicate j.isLt
  · exact Vector.getElem_replicate k.isLt

/-- Settles O45 (R302, R306): the answer is built of the image and the host's inputs alone. -/
theorem resetLeavesNothingOfTheOldState : Obligations.ResetLeavesNothingOfTheOldState := by
  intro s image rest hhost
  rw [step_of_transaction s hhost]
  exact ⟨fun h => ⟨_, State.resetWith_of_le h, transact_reset_of_le _ h⟩, transact_reset_of_gt _⟩

end Sys2Proof.Machine
end

section
/-! Control transfer (41_control_transfer.md): the computed jump, the call and the return. -/

namespace Sys2Proof.Machine

theorem onlyStackChanges_withStack (s : State) (stack : Vector Word 16) (sp : Fin 17) (p : Word) :
    onlyStackChanges s { s with stack := stack, sp := sp, pc := p } :=
  ⟨fun _ => rfl, rfl, fun _ => rfl, ⟨rfl, rfl⟩, rfl, rfl, rfl, rfl, rfl, rfl⟩

/-- The word of a `Call` (R95). -/
theorem encode_call (nnn : Imm12) : encode (.call nnn) = 0x2000 ||| nnn.setWidth 16 := by
  have hplace : placeA nnn = nnn.setWidth 16 := by
    apply BitVec.eq_of_toNat_eq
    have := nnn.isLt
    rw [placeA, append_toNat, BitVec.toNat_setWidth, BitVec.toNat_ofNat]
    omega
  rw [← hplace]
  rfl

/-- Settles O16 (R157): the target does not wrap, a 12-bit and an 8-bit value being added at 16 bits. -/
theorem jumpPlusRegister0AddsV0 : Obligations.JumpPlusRegister0AddsV0 := fun nnn s =>
  ⟨_, exec_jumpPlusRegister0 nnn s, jumpTarget_toNat nnn (s.reg 0), onlyPcChanges_withPc s _⟩

/-- Settles O17 (R152): the slot at `sp` gets the address of the `Call`, unless all 16 are valid. -/
theorem callPushesItsOwnAddress : Obligations.CallPushesItsOwnAddress := by
  refine fun nnn s => ⟨fun h => ?_, fun h => encode_call nnn ▸ exec_call_of_full nnn h⟩
  refine ⟨_, exec_call_of_lt nnn h, zext12_toNat nnn, rfl, fun j => ?_, onlyStackChanges_withStack s _ _ _⟩
  simp only [Fin.getElem_fin, Vector.getElem_set, eq_comm]

/-- Settles O18 (R150): the entry below `sp` is popped, its slot kept, unless none is valid. -/
theorem returnResumesAfterTheCall : Obligations.ReturnResumesAfterTheCall := fun s =>
  ⟨fun j h => ⟨_, exec_ret_of_succ j.isLt h, rfl, rfl, rfl, onlyStackChanges_withStack s _ _ _⟩, exec_ret_of_empty⟩

/-- Settles O19 (R150, R152): the entry the `Return` pops is the one the `Call` pushed. -/
theorem returnUndoesCall : Obligations.ReturnUndoesCall := by
  intro nnn s t u hlt hcall hstack hsp
  cases (exec_call_of_lt nnn hlt).symm.trans hcall
  refine ⟨_, exec_ret_of_succ hlt (congrArg Fin.val hsp), ?_, rfl⟩
  simp only [hstack, Vector.getElem_set_self]

end Sys2Proof.Machine
end

section
/-! Register and ALU instructions (42_alu.md): plain assignments, the forms that set a flag, and the random byte. -/

namespace Sys2Proof.Machine

/-! ## The flag-setting form (R170(e)) -/

/-- What an instruction does that writes a flag and then its result, and advances by 2. -/
theorem exists_next_of_setFlagAndResult {i : Instr} {s : State} {x : RegIndex} {flag : Bool} {b : Byte}
    (hexec : exec i s = .next (s.setFlagAndResult x flag b)) :
    ∃ t, exec i s = .next t ∧ t.reg x = b ∧ (x ≠ 0xF → t.reg 0xF = flagByte flag) ∧ t.pc = s.pc + 2 ∧
      onlyRegsChange (fun r => r = x ∨ r = 0xF) s t := by
  have hreg := fun r => s.reg_setFlagAndResult x r flag b
  refine ⟨_, hexec, (hreg x).trans (if_pos rfl), fun hx => ?_, rfl, onlyRegsChange_withV s _ fun r hr => ?_⟩
  · exact (hreg VF).trans ((if_neg (Ne.symm hx)).trans (if_pos rfl))
  · obtain ⟨hx, hVF⟩ := not_or.1 hr
    exact (hreg r).trans ((if_neg hx).trans (if_neg hVF))

/-! ## The flags as numbers -/

theorem flagByte_decide (p : Prop) [Decidable p] : flagByte (decide p) = if p then 1 else 0 := by
  simp [flagByte]

theorem shiftedOutLow_toNat (a : Byte) : (flagByte (shiftedOutLow a)).toNat = a.toNat % 2 := by
  revert a; decide

theorem shiftedOutHigh_toNat (a : Byte) : (flagByte (shiftedOutHigh a)).toNat = a.toNat / 128 := by
  revert a; decide

/-! ## The results as numbers -/

theorem byte_sub_toNat (a b : Byte) : (a - b).toNat = (a.toNat + 256 - b.toNat) % 256 := by
  have := b.isLt
  rw [BitVec.toNat_sub]
  omega

theorem byte_shiftRight_toNat (a : Byte) : (a >>> 1).toNat = a.toNat / 2 := by
  rw [BitVec.toNat_ushiftRight, Nat.shiftRight_eq_div_pow, pow_one]

theorem byte_shiftLeft_toNat (a : Byte) : (a <<< 1).toNat = a.toNat * 2 % 256 := by
  rw [BitVec.toNat_shiftLeft, Nat.shiftLeft_eq, pow_one]

/-! ## The obligations -/

/-- Settles O22 (R173 to R176): the four forms store one byte and differ only in which. -/
theorem moveAndBitwiseFormsWriteOneRegister : Obligations.MoveAndBitwiseFormsWriteOneRegister := by
  refine fun x y s => ⟨exists_next_of_setReg_advance (exec_move x y s), ?_, ?_, ?_⟩
  · obtain ⟨t, hexec, hreg, hrest⟩ := exists_next_of_setReg_advance (exec_or x y s)
    exact ⟨t, hexec, fun k => hreg ▸ BitVec.getLsbD_or, hrest⟩
  · obtain ⟨t, hexec, hreg, hrest⟩ := exists_next_of_setReg_advance (exec_and x y s)
    exact ⟨t, hexec, fun k => hreg ▸ BitVec.getLsbD_and, hrest⟩
  · obtain ⟨t, hexec, hreg, hrest⟩ := exists_next_of_setReg_advance (exec_xor x y s)
    exact ⟨t, hexec, fun k => hreg ▸ BitVec.getLsbD_xor, hrest⟩

/-- Settles O23 (R177): an 8-bit sum is the sum of the values modulo 256, the flag whether it exceeds 255. -/
theorem addSetsCarry : Obligations.AddSetsCarry := by
  intro x y s
  obtain ⟨t, hexec, hreg, hflag, hrest⟩ := exists_next_of_setFlagAndResult (exec_add x y s)
  exact ⟨t, hexec, hreg ▸ BitVec.toNat_add _ _, fun hx => (hflag hx).trans (flagByte_decide _), hrest⟩

/-- Settles O24 (R178, R180): the two subtractions differ in which operand is the minuend. -/
theorem subtractionsSetStrictNotBorrow : Obligations.SubtractionsSetStrictNotBorrow := by
  refine fun x y s => ⟨?_, ?_⟩
  · obtain ⟨t, hexec, hreg, hflag, hrest⟩ := exists_next_of_setFlagAndResult (exec_sub x y s)
    exact ⟨t, hexec, hreg ▸ byte_sub_toNat _ _, fun hx => (hflag hx).trans (flagByte_decide _), hrest⟩
  · obtain ⟨t, hexec, hreg, hflag, hrest⟩ := exists_next_of_setFlagAndResult (exec_reverseSub x y s)
    exact ⟨t, hexec, hreg ▸ byte_sub_toNat _ _, fun hx => (hflag hx).trans (flagByte_decide _), hrest⟩

/-- Settles O25 (R179, R181): a shift by one bit halves or doubles the value, the flag being the remainder or the
overflow. -/
theorem shiftsMoveOneBitOut : Obligations.ShiftsMoveOneBitOut := by
  refine fun x y s => ⟨?_, ?_⟩
  · obtain ⟨t, hexec, hreg, hflag, hrest⟩ := exists_next_of_setFlagAndResult (exec_shiftRight x y s)
    exact ⟨t, hexec, hreg ▸ byte_shiftRight_toNat _, fun hx => hflag hx ▸ shiftedOutLow_toNat _, hrest⟩
  · obtain ⟨t, hexec, hreg, hflag, hrest⟩ := exists_next_of_setFlagAndResult (exec_shiftLeft x y s)
    exact ⟨t, hexec, hreg ▸ byte_shiftLeft_toNat _, fun hx => hflag hx ▸ shiftedOutHigh_toNat _, hrest⟩

/-- Settles O26 (R182): a bit of a conjunction is off where the mask's is. -/
theorem loadRandomMaskedStoresMaskedDraw : Obligations.LoadRandomMaskedStoresMaskedDraw := by
  intro x kk s
  have hreg := s.reg_setReg_self x (Config.drawRnd s.draws &&& kk)
  refine ⟨_, exec_loadRandomMasked x kk s, hreg, fun k hk => ?_, rfl, rfl,
    onlyRegsChange_setReg_advance s x _ 2⟩
  exact (congrArg (BitVec.getLsbD · k) hreg).trans (by rw [BitVec.getLsbD_and, hk, Bool.and_false])

end Sys2Proof.Machine
end

section
/-! `AddToIndex` (43_index_memory.md R201), and the keypad and timer instructions (45_keypad_timers.md R240 to R245). -/

namespace Sys2Proof.Machine

/-- Settles O28 (R201): the zero-extended byte is added at 16 bits. -/
theorem addToIndexWrapsAt16Bits : Obligations.AddToIndexWrapsAt16Bits := by
  intro x s
  obtain ⟨t, hexec, hI, hrest⟩ := exists_next_of_withI_advance (exec_addToIndex x s)
  exact ⟨t, hexec, by rw [hI, BitVec.toNat_add, zext8_toNat], hrest⟩

/-- Settles O39 (R240, R241): up to 15 the register's value and the key index are the same number. -/
theorem keySkipsTestTheNamedKey : Obligations.KeySkipsTestTheNamedKey := by
  refine fun x s => ⟨fun k hk => ?_, fun h => ⟨State.keySkip_of_gt _ true h, State.keySkip_of_gt _ false h⟩⟩
  have hlt := k.isLt
  have hle : (s.reg x).toNat ≤ 15 := by omega
  have hkey : (s.reg x).setWidth 4 = k := by
    apply BitVec.eq_of_toNat_eq
    rw [BitVec.toNat_setWidth]
    omega
  have hpressed := (exec_skipIfKeyPressed x s).trans (State.keySkip_of_le _ true hle)
  have hreleased := (exec_skipIfKeyNotPressed x s).trans (State.keySkip_of_le _ false hle)
  rw [hkey] at hpressed hreleased
  exact ⟨exists_next_of_skipIf hpressed beq_iff_eq, exists_next_of_skipIf hreleased beq_iff_eq⟩

/-- Settles O40 (R242): beside the key-wait marker only `pc` is written. -/
theorem waitForKeyArmsTheGate : Obligations.WaitForKeyArmsTheGate := fun x s =>
  ⟨_, exec_waitForKey x s, rfl, rfl, onlyPcChanges_withPc s _⟩

/-- Settles O41 (R243 to R245): one register or one timer is written, and `pc`. -/
theorem timerInstructionsCopy : Obligations.TimerInstructionsCopy := fun x s =>
  ⟨exists_next_of_setReg_advance (exec_readDelayTimer x s),
    ⟨_, exec_setDelayTimer x s, rfl, rfl, onlyPcChanges_withPc s _⟩,
    ⟨_, exec_setSoundTimer x s, rfl, rfl, onlyPcChanges_withPc s _⟩⟩

end Sys2Proof.Machine
end

section
/-! The transfers through `I` (43_index_memory.md R203 to R206) and the fetch of what has just been stored (R73). -/

namespace Sys2Proof.Machine

/-! ## The instructions inside memory -/

theorem onlyMemChanges_withMem (s : State) (m : Memory) (p : Word) :
    onlyMemChanges s { s with mem := m, pc := p } :=
  ⟨fun _ => rfl, rfl, ⟨rfl, rfl⟩, ⟨rfl, rfl⟩, rfl, rfl, rfl, rfl, rfl, rfl⟩

theorem exec_storeBCD_inside {x : RegIndex} {s : State} (h : s.I.toNat + 2 ≤ 4095) :
    exec (.storeBCD x) s = .next ((s.storeAtI (bcdDigits (s.reg x))).advance 2) :=
  State.guardRange_inside _ _ _ (.inr (Nat.succ_le_succ h))

theorem exec_storeRegisters_inside {x : RegIndex} {s : State} (h : s.I.toNat + x.toNat ≤ 4095) :
    exec (.storeRegisters x) s = .next ((s.storeAtI (s.regsUpTo x)).advance 2) :=
  State.guardRange_inside _ _ _ (.inr (Nat.succ_le_succ h))

theorem exec_loadRegisters_inside {x : RegIndex} {s : State} (h : s.I.toNat + x.toNat ≤ 4095) :
    exec (.loadRegisters x) s = .next ((s.loadRegs (x.toNat + 1)).advance 2) :=
  State.guardRange_inside _ _ _ (.inr (Nat.succ_le_succ h))

/-! ## The bytes a store leaves in memory -/

theorem bcdDigits_fit {x : RegIndex} {s : State} (h : s.I.toNat + 2 ≤ 4095) :
    s.I.toNat + (bcdDigits (s.reg x)).length ≤ Config.memSize := Nat.succ_le_succ h

theorem regsUpTo_fit {x : RegIndex} {s : State} (h : s.I.toNat + x.toNat ≤ 4095) :
    s.I.toNat + (s.regsUpTo x).length ≤ Config.memSize := by
  rw [State.regsUpTo_length]
  exact Nat.succ_le_succ h

/-- After a store inside memory an address reads the byte stored there, or what it read before. -/
theorem State.get_storeAtI {s : State} {bytes : List Byte} (hfit : s.I.toNat + bytes.length ≤ Config.memSize)
    (hwf : s.mem.wf = true) (a : Nat) : (s.storeAtI bytes).mem.get a =
      if s.I.toNat ≤ a then (bytes[a - s.I.toNat]?).getD (s.mem.get a) else s.mem.get a := by
  rw [State.storeAtI_mem, Memory.get_setBytes hfit hwf]
  by_cases ha : s.I.toNat ≤ a
  · by_cases hlt : a - s.I.toNat < bytes.length
    · simp [ha, hlt]
    · simp [ha, hlt]
  · simp [ha]

/-- `StoreBCD` inside memory leaves the bytes `storedByte` names (R203). -/
theorem get_storeBCD {x : RegIndex} {s : State} (h : s.I.toNat + 2 ≤ 4095) (hwf : s.mem.wf = true) (a : Nat) :
    (s.storeAtI (bcdDigits (s.reg x))).mem.get a = (storedByte s (.storeBCD x) a).getD (s.mem.get a) := by
  rw [State.get_storeAtI (bcdDigits_fit h) hwf]
  by_cases ha : s.I.toNat ≤ a
  · obtain ⟨k, rfl⟩ := Nat.exists_eq_add_of_le ha
    rcases k with _ | _ | _ | k <;> simp [storedByte, effectiveAddr, bcdDigits]
  · have hne : ∀ k, a ≠ s.I.toNat + k := fun k => by omega
    simp [storedByte, effectiveAddr, ha, hne, show a ≠ s.I.toNat from hne 0]

/-- `StoreRegisters` inside memory leaves the bytes `storedByte` names (R204). -/
theorem get_storeRegisters {x : RegIndex} {s : State} (h : s.I.toNat + x.toNat ≤ 4095) (hwf : s.mem.wf = true)
    (a : Nat) : (s.storeAtI (s.regsUpTo x)).mem.get a = (storedByte s (.storeRegisters x) a).getD (s.mem.get a) := by
  have hlen := s.regsUpTo_length x
  rw [State.get_storeAtI (regsUpTo_fit h) hwf]
  by_cases ha : s.I.toNat ≤ a
  · by_cases hx : a ≤ effectiveAddr s.I x.toNat
    · have hidx : a - s.I.toNat < (s.regsUpTo x).length := by
        rw [hlen]
        simp only [effectiveAddr] at hx
        omega
      simp [storedByte, ha, hx, hidx, State.getElem_regsUpTo]
    · have hidx : ¬ a - s.I.toNat < (s.regsUpTo x).length := by
        rw [hlen]
        simp only [effectiveAddr] at hx
        omega
      simp [storedByte, ha, hx, hidx]
  · simp [storedByte, ha]

/-! ## `storedByte` at the addresses the rules speak of -/

theorem storedByte_storeRegisters_inside {x r : RegIndex} (s : State) (h : r.toNat ≤ x.toNat) :
    storedByte s (.storeRegisters x) (effectiveAddr s.I r.toNat) = some (s.reg r) := by
  have hr : BitVec.ofNat 4 (effectiveAddr s.I r.toNat - s.I.toNat) = r := by
    rw [effectiveAddr, Nat.add_sub_cancel_left, BitVec.ofNat_toNat, BitVec.setWidth_eq]
  have hle : s.I.toNat ≤ effectiveAddr s.I r.toNat ∧ effectiveAddr s.I r.toNat ≤ effectiveAddr s.I x.toNat := by
    simp only [effectiveAddr]
    omega
  rw [storedByte, if_pos hle, hr]

theorem storedByte_storeRegisters_outside {x : RegIndex} {s : State} {a : Nat}
    (h : ∀ i ≤ x.toNat, a ≠ effectiveAddr s.I i) : storedByte s (.storeRegisters x) a = none := by
  refine if_neg fun ⟨hlo, hhi⟩ => h (a - s.I.toNat) ?_ ?_
  · simp only [effectiveAddr] at hhi
    omega
  · simp only [effectiveAddr]
    omega

theorem storedByte_of_not_store {i : Instr} (s : State) (h : ¬ ∃ x, i = .storeBCD x ∨ i = .storeRegisters x)
    (a : Nat) : storedByte s i a = none := by
  cases i with
  | storeBCD x => exact absurd ⟨x, .inl rfl⟩ h
  | storeRegisters x => exact absurd ⟨x, .inr rfl⟩ h
  | _ => rfl

/-- A small number as a byte. -/
theorem byte_ofNat_toNat {n : Nat} (h : n < 256) : (BitVec.ofNat 8 n).toNat = n := by
  rw [BitVec.toNat_ofNat, Nat.mod_eq_of_lt h]

/-! ## What memory reads as after any instruction -/

/-- After an instruction that did not fault memory reads as before, but for the bytes `storedByte` names. -/
theorem get_of_exec {i : Instr} {s t : State} (hwf : s.mem.wf = true) (hexec : exec i s = .next t)
    (ht : t.fault = none) (a : Nat) : t.mem.get a = (storedByte s i a).getD (s.mem.get a) := by
  by_cases hi : ∃ x, i = .storeBCD x ∨ i = .storeRegisters x
  · obtain ⟨x, rfl | rfl⟩ := hi
    · rcases s.guardRange_cases .indexWrite (.storeBCD x) 3 ((s.storeAtI (bcdDigits (s.reg x))).advance 2) with
        ⟨-, -, h⟩ | ⟨hin, h⟩
      · cases h.symm.trans hexec
        cases ht
      · cases h.symm.trans hexec
        exact get_storeBCD (by simp only [Config.memSize] at hin; omega) hwf a
    · rcases s.guardRange_cases .indexWrite (.storeRegisters x) (x.toNat + 1)
        ((s.storeAtI (s.regsUpTo x)).advance 2) with ⟨-, -, h⟩ | ⟨hin, h⟩
      · cases h.symm.trans hexec
        cases ht
      · cases h.symm.trans hexec
        exact get_storeRegisters (by simp only [Config.memSize] at hin; omega) hwf a
  · have hmem : t.mem = s.mem := by
      by_contra hne
      exact hi ((Effect.of_exec hexec).writer_of_mem_ne hne)
    rw [hmem, storedByte_of_not_store s hi]
    rfl

/-! ## The obligations -/

/-- Settles O29 (R203): inside memory the digits are stored, each a number below 10 and so exact as a byte. -/
theorem storeBCDWritesThreeDigits : Obligations.StoreBCDWritesThreeDigits := by
  intro x s hwf h
  have hget := get_storeBCD (x := x) h hwf
  have hx := (s.reg x).isLt
  refine ⟨_, exec_storeBCD_inside h, ?_, ?_, ?_, fun a ha => ?_, Memory.setBytes_wf (bcdDigits_fit h) hwf, rfl,
    onlyMemChanges_withMem s _ _⟩
  · exact (congrArg BitVec.toNat ((hget _).trans (by simp [storedByte]))).trans (byte_ofNat_toNat (by omega))
  · exact (congrArg BitVec.toNat ((hget _).trans (by simp [storedByte, effectiveAddr]))).trans
      (byte_ofNat_toNat (by omega))
  · exact (congrArg BitVec.toNat ((hget _).trans (by simp [storedByte, effectiveAddr]))).trans
      (byte_ofNat_toNat (by omega))
  · exact (hget a).trans (by simp [storedByte, ha 0, ha 1, ha 2])

/-- Settles O30 (R204): inside memory the registers are stored in order. -/
theorem storeRegistersWritesTheRange : Obligations.StoreRegistersWritesTheRange := by
  intro x s hwf h
  have hget := get_storeRegisters h hwf
  refine ⟨_, exec_storeRegisters_inside h, fun r hr => ?_, fun a ha => ?_, Memory.setBytes_wf (regsUpTo_fit h) hwf,
    rfl, onlyMemChanges_withMem s _ _⟩
  · exact (hget _).trans (by rw [storedByte_storeRegisters_inside s hr]; rfl)
  · exact (hget a).trans (by rw [storedByte_storeRegisters_outside ha]; rfl)

theorem onlyRegsChange_loadRegs {x : RegIndex} (s : State) (n : Nat) :
    onlyRegsChange (fun r => r.toNat ≤ x.toNat) s ((s.loadRegs (x.toNat + 1)).advance n) := by
  have hreg := s.reg_loadRegs (x.toNat + 1) x.isLt
  obtain ⟨V, hV⟩ := s.loadRegs_eq (x.toNat + 1)
  rw [hV] at hreg ⊢
  exact onlyRegsChange_withV s _ fun r hr => (hreg r).trans (if_neg fun hlt => hr (Nat.le_of_lt_succ hlt))

theorem reg_loadRegs_of_le {x r : RegIndex} (s : State) (h : r.toNat ≤ x.toNat) :
    (s.loadRegs (x.toNat + 1)).reg r = s.mem.get (effectiveAddr s.I r.toNat) :=
  (s.reg_loadRegs (x.toNat + 1) x.isLt r).trans (if_pos (Nat.lt_succ_of_le h))

/-- Settles O31 (R205): inside memory the registers up to `x` are loaded in order. -/
theorem loadRegistersReadsTheRange : Obligations.LoadRegistersReadsTheRange := by
  intro x s h
  refine ⟨_, exec_loadRegisters_inside h, fun r hr => reg_loadRegs_of_le s hr, ?_, onlyRegsChange_loadRegs s 2⟩
  obtain ⟨V, hV⟩ := s.loadRegs_eq (x.toNat + 1)
  rw [hV]
  rfl

/-- Settles O32 (R66, R203 to R205, R222): each of the four is guarded, and the guard comes before the write. -/
theorem accessBeyondMemoryFaultsBeforeWriting : Obligations.AccessBeyondMemoryFaultsBeforeWriting := by
  refine fun s => ⟨fun x h => ?_, fun x h => ?_, fun x h => ?_, fun x y n hn h => ?_⟩
  · exact State.guardRange_outside _ _ _ (by decide) h
  · exact State.guardRange_outside _ _ _ (Nat.succ_ne_zero _) h
  · exact State.guardRange_outside _ _ _ (Nat.succ_ne_zero _) h
  · have hpos : n.toNat ≠ 0 := fun e => hn (BitVec.eq_of_toNat_eq e)
    have haddr : s.I.toNat + n.toNat - 1 = s.I.toNat + (n.toNat - 1) := Nat.add_sub_assoc (by omega) _
    rw [haddr] at h ⊢
    exact State.guardRange_outside _ _ _ hpos h

/-- Settles O33 (R205): each register is loaded from where it was stored. -/
theorem loadAfterStoreRestoresRegisters : Obligations.LoadAfterStoreRestoresRegisters := by
  intro x s t u hwf h hexec hmem hI
  cases (exec_storeRegisters_inside h).symm.trans hexec
  refine ⟨_, exec_loadRegisters_inside (hI ▸ h), fun r hr => (reg_loadRegs_of_le u hr).trans ?_⟩
  rw [hmem, hI]
  exact (get_storeRegisters h hwf _).trans (by rw [storedByte_storeRegisters_inside s hr]; rfl)

/-- Settles O34 (R73): the fetch reads memory as the instruction left it. -/
theorem storedBytesAreFetchedAtOnce : Obligations.StoredBytesAreFetchedAtOnce := by
  intro i s t u hwf hexec ht hmem hpc
  refine ⟨_, u.fetch_ok hpc, ?_⟩
  rw [bigEndian_toNat, hmem, get_of_exec hwf hexec ht, get_of_exec hwf hexec ht]

end Sys2Proof.Machine
end

section
/-! Sprites (44_display.md R222, R224): drawing twice, drawing on a cleared framebuffer, and `DrawSprite`. -/

namespace Sys2Proof.Machine

/-! ## Drawing on a cleared framebuffer, and drawing again -/

theorem Framebuffer.pixel_draw (fb : Framebuffer) (x y : Byte) {bytes : List Byte} (hlen : bytes.length ≤ 32)
    (row : Fin 32) (col : Fin 64) :
    (fb.draw x y bytes).1.pixel row col = (fb.pixel row col ^^ spriteBit x y bytes row col) :=
  (fb.xored_draw x y hlen).pixel row col

/-- On a cleared framebuffer the lit pixels are the sprite's 1 bits. -/
theorem Framebuffer.pixel_draw_clear (x y : Byte) {bytes : List Byte} (hlen : bytes.length ≤ 32) (row : Fin 32)
    (col : Fin 64) : (Framebuffer.clear.draw x y bytes).1.pixel row col = spriteBit x y bytes row col := by
  rw [Framebuffer.pixel_draw _ x y hlen, Framebuffer.pixel_clear, Bool.false_xor]

/-- On a cleared framebuffer no pixel is lit that could go out. -/
theorem Framebuffer.hit_draw_clear (x y : Byte) {bytes : List Byte} (hlen : bytes.length ≤ 32) :
    (Framebuffer.clear.draw x y bytes).2 = false := by
  rw [← Bool.not_eq_true, (Framebuffer.clear.xored_draw x y hlen).hit_iff_unlit rfl]
  simp

/-- A mask XORed in twice is none. -/
theorem Framebuffer.draw_draw (fb : Framebuffer) (x y : Byte) {bytes : List Byte} (hlen : bytes.length ≤ 32) :
    ((fb.draw x y bytes).1.draw x y bytes).1 = fb :=
  Framebuffer.ext_pixel fun row col => by
    rw [Framebuffer.pixel_draw _ x y hlen, Framebuffer.pixel_draw _ x y hlen, Bool.xor_assoc, Bool.xor_self,
      Bool.xor_false]

/-! ## `DrawSprite` -/

/-- A sprite without rows leaves the framebuffer and collides with nothing (D22). -/
theorem Framebuffer.draw_nil (fb : Framebuffer) (x y : Byte) : fb.draw x y [] = (fb, false) := rfl

theorem exec_drawSprite_inside {x y : RegIndex} {n : Nibble} {s : State}
    (h : n = 0 ∨ s.I.toNat + n.toNat - 1 ≤ 4095) : exec (.drawSprite x y n) s = .next (s.spriteDrawn x y n) := by
  refine State.guardRange_inside _ _ _ ?_
  obtain rfl | h := h
  · exact .inl rfl
  · simp only [Config.memSize]
    omega

theorem State.reg_spriteDrawn_VF (s : State) (x y : RegIndex) (n : Nibble) :
    (s.spriteDrawn x y n).reg VF = flagByte (s.fb.draw (s.reg x) (s.reg y) (s.loadAtI n.toNat)).2 :=
  State.reg_setReg_self _ VF _

/-! ## The obligations -/

/-- Settles O37 (R224): (a) the second draw XORs the same mask in again, so a pixel it puts out is one the first draw
lit; (b) the mask of the two examples is evaluated at each pixel; (c) the mask meets no lit pixel. -/
theorem drawingTwiceRestoresTheFramebuffer : Obligations.DrawingTwiceRestoresTheFramebuffer := by
  refine ⟨fun fb x y bytes hlen => ?_, fun col => ?_, fun row => ?_, fun x y bytes hlen => ?_⟩
  · have hlen' : bytes.length ≤ 32 := by omega
    have hagain := (fb.draw x y bytes).1.xored_draw x y hlen'
    refine ⟨fb.draw_draw x y hlen', ?_⟩
    rw [hagain.hit_iff_unlit rfl, fb.draw_draw x y hlen']
    simp only [and_comm]
  · rw [Framebuffer.pixel_draw_clear 60 0 (by decide)]
    revert col
    decide
  · rw [Framebuffer.pixel_draw_clear 0 31 (by decide)]
    revert row
    decide
  · have hlen' : bytes.length ≤ 32 := by omega
    exact ⟨Framebuffer.hit_draw_clear x y hlen', Framebuffer.pixel_draw_clear x y hlen'⟩

/-- Settles O38 (R222): the bytes are those at `I`; with no row the draw is of the empty sprite. -/
theorem drawSpriteDrawsAndSetsVF : Obligations.DrawSpriteDrawsAndSetsVF := by
  intro x y n s h
  refine ⟨_, s.loadAtI n.toNat, exec_drawSprite_inside h, Memory.getBytes_length _ _ _,
    fun r hr => Memory.getElem_getBytes _ _ _ r hr, rfl, s.reg_spriteDrawn_VF x y n, ?_, rfl,
    onlyRegsChange_setReg_advance s VF _ 2⟩
  rintro rfl
  have hdraw := s.fb.draw_nil (s.reg x) (s.reg y)
  exact ⟨congrArg Prod.fst hdraw, (s.reg_spriteDrawn_VF x y 0).trans (congrArg (flagByte ·.2) hdraw)⟩

end Sys2Proof.Machine
end
